-- ==== Sys2Proof/Word.lean ====
section
/-! DEFINITION. The words of the FrotaGestor codec block: bytes, byte strings and the fixed-width
operand words of 30_encoding.md rule R62. -/

namespace Sys2Proof

/-- A byte is 8 bits (00_scope.md rule R10). -/
abbrev Byte := BitVec 8

/-- A u16 or the bits of an i16 (30_encoding.md rule R62). -/
abbrev Word16 := BitVec 16

/-- A u32 or the bits of an i32 (30_encoding.md rule R62). -/
abbrev Word32 := BitVec 32

/-- The bits of an IEEE 754 binary64 operand (30_encoding.md rule R63). -/
abbrev F64 := BitVec 64

/-- A byte string: a finite sequence of bytes, indexed from 0 (00_scope.md rule R10). -/
abbrev Bytes := List Byte

end Sys2Proof
end

