-- ==== Sys2Proof/Config.lean ====
section
/-! DEFINITION. The build-time parameters of a block instance (00_scope.md rule R8). The spec leaves
their values OPEN, so each is chosen by constants without a body: nothing can be proved of a
parameter but that it is legal. The constants range over the legal values and no others, so every
instance the spec lets be built is one value of them, and none is an instance it refuses to build
(assumption log 1). -/

namespace Sys2Proof

/-- The sixteen fields of the status record, in the order of their field numbers 1 to 16
(44_text_frame.md rule R222). -/
inductive SttField where
  | deviceId | firmware | date | time | odometer | latitude | longitude | speed
  | course | satellites | fixFlag | ignitionFlag | battery | signal | ioStatus | eventCode
deriving DecidableEq, Repr

/-- The STT field number of a field, 1 to 16 (44_text_frame.md rule R222). -/
def SttField.number : SttField → Nat
  | .deviceId => 1
  | .firmware => 2
  | .date => 3
  | .time => 4
  | .odometer => 5
  | .latitude => 6
  | .longitude => 7
  | .speed => 8
  | .course => 9
  | .satellites => 10
  | .fixFlag => 11
  | .ignitionFlag => 12
  | .battery => 13
  | .signal => 14
  | .ioStatus => 15
  | .eventCode => 16

/-- All fields of the status record, field 1 first (44_text_frame.md rule R222). -/
def SttField.all : List SttField :=
  [.deviceId, .firmware, .date, .time, .odometer, .latitude, .longitude, .speed,
   .course, .satellites, .fixFlag, .ignitionFlag, .battery, .signal, .ioStatus, .eventCode]

/-- The build-time parameters of one block instance (00_scope.md rule R8). They are no part of the
state, and no command reads them back or changes them (10_state.md rule R22). -/
structure Params where
  /-- CELL_ID_WIDTH: bytes of the cell-tower identifier in a location frame. -/
  cellIdWidth : Nat
  /-- P_LATLON: decimal places of text latitude and longitude. -/
  pLatLon : Nat
  /-- P_SPEED: decimal places of the text speed. -/
  pSpeed : Nat
  /-- P_COURSE: decimal places of the text course. -/
  pCourse : Nat
  /-- P_BATT: decimal places of the text battery voltage. -/
  pBatt : Nat
  /-- TAG_STT: the tag of the status record. -/
  tagStt : Bytes
  /-- TAG_ALV: the tag of the alive record. -/
  tagAlv : Bytes
  /-- ALV_FIELDS: the status-record fields that the alive record carries. -/
  alvFields : List SttField
deriving DecidableEq, Repr

/-- The ASCII letters `STT`, in which TAG_STT ends (44_text_frame.md rule R225). -/
def tagSttEnding : Bytes := [0x53, 0x54, 0x54]

/-- The ASCII letters `ALV`, in which TAG_ALV ends (44_text_frame.md rule R225). -/
def tagAlvEnding : Bytes := [0x41, 0x4C, 0x56]

/-- The legal text bytes in rising order, numbered 0 to 93: 0x20 to 0x3A, then 0x3C to 0x7E
(44_text_frame.md rule R200). -/
def textByteNumber (k : Fin 94) : Byte :=
  if k.val < 27 then BitVec.ofNat 8 (0x20 + k.val) else BitVec.ofNat 8 (0x21 + k.val)

/-- A byte string of `n` legal text bytes, its bytes given by their numbers. -/
def textOf (n : Nat) (number : Nat → Fin 94) : Bytes :=
  (List.range n).map fun k => textByteNumber (number k)

/-- The fields whose bit is set in a mask, in field order; field 1 is bit 0. -/
def fieldsOfMask (mask : Nat) : List SttField :=
  SttField.all.filter fun f => mask.testBit (f.number - 1)

/-- The parameters made from one choice of each open value. The tags are a free text of at most 252
bytes before the fixed ending, and `alvChoice + 1` is a mask that is neither empty nor full, so the
result is always legal (00_scope.md rule R8; 44_text_frame.md rules R225, R226). -/
def Params.ofChoices (wideCell : Bool) (pLatLon pSpeed pCourse pBatt : Fin 10)
    (sttLength : Fin 253) (sttByte : Nat → Fin 94)
    (alvLength : Fin 253) (alvByte : Nat → Fin 94) (alvChoice : Fin 65534) : Params where
  cellIdWidth := if wideCell then 4 else 3
  pLatLon := pLatLon.val
  pSpeed := pSpeed.val
  pCourse := pCourse.val
  pBatt := pBatt.val
  tagStt := textOf sttLength.val sttByte ++ tagSttEnding
  tagAlv := textOf alvLength.val alvByte ++ tagAlvEnding
  alvFields := fieldsOfMask (alvChoice.val + 1)

namespace Config

/-- Whether CELL_ID_WIDTH is 4 rather than 3: OPEN (92_eei_decisions.md D17). -/
opaque wideCell : Bool

/-- P_LATLON, 0 to 9: OPEN (92_eei_decisions.md D26). -/
opaque pLatLon : Fin 10

/-- P_SPEED, 0 to 9: OPEN (92_eei_decisions.md D26). -/
opaque pSpeed : Fin 10

/-- P_COURSE, 0 to 9: OPEN (92_eei_decisions.md D26). -/
opaque pCourse : Fin 10

/-- P_BATT, 0 to 9: OPEN (92_eei_decisions.md D26). -/
opaque pBatt : Fin 10

/-- How many bytes TAG_STT has before `STT`: OPEN (92_eei_decisions.md D27). -/
opaque sttLength : Fin 253

/-- The bytes TAG_STT has before `STT`, by number: OPEN (92_eei_decisions.md D27). -/
opaque sttByte : Nat → Fin 94

/-- How many bytes TAG_ALV has before `ALV`: OPEN (92_eei_decisions.md D27). -/
opaque alvLength : Fin 253

/-- The bytes TAG_ALV has before `ALV`, by number: OPEN (92_eei_decisions.md D27). -/
opaque alvByte : Nat → Fin 94

/-- Which proper, non-empty subset ALV_FIELDS is: OPEN (92_eei_decisions.md D28). -/
opaque alvChoice : Fin 65534

/-- The parameters this instance is built with. They hold from reset to reset
(10_state.md rule R22; 70_reset_and_hazards.md rule R282). -/
def params : Params :=
  Params.ofChoices wideCell pLatLon pSpeed pCourse pBatt sttLength sttByte alvLength alvByte
    alvChoice

end Config

end Sys2Proof
end

