-- ==== Sys2Proof/Syntax.lean ====
section
/-! DEFINITION. The commands of the block, with their operands typed as 30_encoding.md rules R62,
R66, R67 and R68 type them, and the errors a command can end in (60_exceptions.md rule R250). A
signed operand is held as its two's-complement bits. -/

namespace Sys2Proof

/-- The BUILD_LOCATION operands (30_encoding.md rule R67, `LocRec`). -/
structure LocRec where
  year : Word16
  month : Byte
  day : Byte
  hour : Byte
  minute : Byte
  second : Byte
  gps : Byte
  lat : F64
  lon : F64
  speed : Byte
  course : Word16
  flags : Byte
  mcc : Word16
  mnc : Byte
  lac : Word16
  cell : Word32
  serial : Word16
deriving DecidableEq, Repr

/-- The BUILD_STT and BUILD_ALV operands (30_encoding.md rule R67, `SttRec`). -/
structure SttRec where
  dev : Bytes
  fw : Bytes
  year : Word16
  month : Byte
  day : Byte
  hour : Byte
  minute : Byte
  second : Byte
  odometer : Word32
  lat : F64
  lon : F64
  speed : F64
  course : F64
  sats : Byte
  fix : Byte
  ignition : Byte
  battery : F64
  signal : Word16
  io : Bytes
  event : Word16
deriving DecidableEq, Repr

/-- The FMT_FIELD sub-formats with their operands (30_encoding.md rule R68). -/
inductive FieldFmt where
  | str (s : Bytes)
  | udec (w : Byte) (v : Word32)
  | sdec (v : Word32)
  | sfix (p : Byte) (v : F64)
  | date8 (year : Word16) (month day : Byte)
  | time6 (hour minute second : Byte)
  | flag (b : Byte)
deriving DecidableEq, Repr

/-- The fifteen commands (30_encoding.md rules R65, R66), one constructor per row of
`opcode_table.json`. -/
inductive Instr where
  | crc16 (data : Bytes)
  | encBcd (id : Bytes)
  | encCoord (deg : F64)
  | encCourseStatus (course : Word16) (flags : Byte)
  | buildFrame (code : Byte) (payload : Bytes) (serial : Word16)
  | buildLogin (id : Bytes) (serial : Word16)
  | buildLocation (r : LocRec)
  | parseFrame (frame : Bytes)
  | serialRead
  | serialNext
  | serialLoad (value : Word16)
  | fmtField (f : FieldFmt)
  | textRecord (tag : Bytes) (fields : List Bytes)
  | buildStt (r : SttRec)
  | buildAlv (r : SttRec)
deriving DecidableEq, Repr

/-- The four reasons of a FrameError (42_binary_frame.md rule R156). -/
inductive FrameReason where
  | tooShort | startMarker | lengthByte | endMarker
deriving DecidableEq, Repr

/-- The errors a command can end in (60_exceptions.md rules R250, R251). -/
inductive CommandError where
  | invalidIdentity
  | checksumError
  | frameError (reason : FrameReason)
  | lengthOverflow
  | coordRange
  | fieldRange
  | fieldChar
  | malformedCommand
  | unknownCommand
deriving DecidableEq, Repr

end Sys2Proof
end

