-- ==== Sys2Proof/WellFormed.lean ====
section
/-! DEFINITION. Which terms of `Instr` are operands a command can carry: every string fits its
length field (30_encoding.md rule R62) and no operand holds a reserved value (rule R69). -/

namespace Sys2Proof

/-- A byte string that a str8 operand can carry (30_encoding.md rule R62). -/
def fitsStr8 (s : Bytes) : Bool := s.length ≤ 255

/-- A byte string that a str16 operand can carry (30_encoding.md rule R62). -/
def fitsStr16 (s : Bytes) : Bool := s.length ≤ 65535

/-- A flags operand whose reserved bits 1, 2, 3, 6 and 7 are clear (30_encoding.md rule R69). -/
def reservedBitsClear (flags : Byte) : Bool :=
  !flags.getLsbD 1 && !flags.getLsbD 2 && !flags.getLsbD 3 && !flags.getLsbD 6 && !flags.getLsbD 7

/-- The sub-format operands a command can carry (30_encoding.md rules R62, R69). -/
def FieldFmt.wellFormed : FieldFmt → Bool
  | .str s => fitsStr8 s
  | .udec w _ => w.toNat ≤ 10
  | .sdec _ => true
  | .sfix p _ => p.toNat ≤ 9
  | .date8 _ _ _ => true
  | .time6 _ _ _ => true
  | .flag _ => true

/-- The status-record operands a command can carry (30_encoding.md rule R62). -/
def SttRec.wellFormed (r : SttRec) : Bool :=
  fitsStr8 r.dev && fitsStr8 r.fw && fitsStr8 r.io

/-- The instructions a command can carry (30_encoding.md rules R62, R66, R69). -/
def Instr.wellFormed : Instr → Bool
  | .crc16 data => fitsStr16 data
  | .encBcd id => fitsStr8 id
  | .encCoord _ => true
  | .encCourseStatus _ flags => reservedBitsClear flags
  | .buildFrame _ payload _ => fitsStr8 payload
  | .buildLogin id _ => fitsStr8 id
  | .buildLocation r => reservedBitsClear r.flags
  | .parseFrame frame => fitsStr16 frame
  | .serialRead => true
  | .serialNext => true
  | .serialLoad _ => true
  | .fmtField f => f.wellFormed
  | .textRecord tag fields => fitsStr8 tag && decide (fields.length ≤ 255) && fields.all fitsStr8
  | .buildStt r => r.wellFormed
  | .buildAlv r => r.wellFormed

end Sys2Proof
end

