-- ==== Sys2Proof/Decode.lean ====
section
/-! DEFINITION. The decoder of commands, total on any byte string and rejecting by name
(30_encoding.md rules R60 to R70), and after it the encoder. The decoder reads operands left to
right: each `take` function answers the value and the bytes that remain, or `none` where fewer bytes
remain than the field needs (rule R64). -/

namespace Sys2Proof

/-- The unsigned value of a byte string read big-endian (00_scope.md rule R11). -/
def fromBe (s : Bytes) : Nat := s.foldl (fun v b => v * 256 + b.toNat) 0

/-- The n-byte big-endian encoding of `v mod 256^n` (00_scope.md rule R11). -/
def be : Nat → Nat → Bytes
  | 0, _ => []
  | n + 1, v => BitVec.ofNat 8 (v / 256 ^ n) :: be n v

/-! ### Reading operands (30_encoding.md rule R64) -/

def takeBytes : Nat → Bytes → Option (Bytes × Bytes)
  | 0, rest => some ([], rest)
  | _ + 1, [] => none
  | n + 1, b :: rest =>
    match takeBytes n rest with
    | some (s, rest') => some (b :: s, rest')
    | none => none

def takeU8 : Bytes → Option (Byte × Bytes)
  | [] => none
  | b :: rest => some (b, rest)

/-- A big-endian word of n bytes, as its bits. -/
def takeWord (n : Nat) (bs : Bytes) : Option (BitVec (8 * n) × Bytes) := do
  let (s, rest) ← takeBytes n bs
  return (BitVec.ofNat (8 * n) (fromBe s), rest)

def takeU16 (bs : Bytes) : Option (Word16 × Bytes) := takeWord 2 bs

def takeU32 (bs : Bytes) : Option (Word32 × Bytes) := takeWord 4 bs

def takeF64 (bs : Bytes) : Option (F64 × Bytes) := takeWord 8 bs

def takeStr8 (bs : Bytes) : Option (Bytes × Bytes) := do
  let (n, rest) ← takeU8 bs
  takeBytes n.toNat rest

def takeStr16 (bs : Bytes) : Option (Bytes × Bytes) := do
  let (n, rest) ← takeU16 bs
  takeBytes n.toNat rest

/-- `n` operands of type str8 (44_text_frame.md rule R220). -/
def takeStr8s : Nat → Bytes → Option (List Bytes × Bytes)
  | 0, rest => some ([], rest)
  | n + 1, bs => do
    let (s, rest) ← takeStr8 bs
    let (ss, rest) ← takeStr8s n rest
    return (s :: ss, rest)

/-! ### Operand lists (30_encoding.md rules R66 to R69) -/

/-- Whether a flags operand sets one of the reserved bits 1, 2, 3, 6, 7 (30_encoding.md rule R69;
the mask is 41_field_encoders.md rule R134's). -/
def flagsReserved (flags : Byte) : Bool := flags &&& 0b11001110 != 0

def takeLocRec (bs : Bytes) : Option (LocRec × Bytes) := do
  let (year, bs) ← takeU16 bs
  let (month, bs) ← takeU8 bs
  let (day, bs) ← takeU8 bs
  let (hour, bs) ← takeU8 bs
  let (minute, bs) ← takeU8 bs
  let (second, bs) ← takeU8 bs
  let (gps, bs) ← takeU8 bs
  let (lat, bs) ← takeF64 bs
  let (lon, bs) ← takeF64 bs
  let (speed, bs) ← takeU8 bs
  let (course, bs) ← takeU16 bs
  let (flags, bs) ← takeU8 bs
  let (mcc, bs) ← takeU16 bs
  let (mnc, bs) ← takeU8 bs
  let (lac, bs) ← takeU16 bs
  let (cell, bs) ← takeU32 bs
  let (serial, bs) ← takeU16 bs
  return ({ year, month, day, hour, minute, second, gps, lat, lon, speed, course, flags, mcc, mnc,
            lac, cell, serial }, bs)

def takeSttRec (bs : Bytes) : Option (SttRec × Bytes) := do
  let (dev, bs) ← takeStr8 bs
  let (fw, bs) ← takeStr8 bs
  let (year, bs) ← takeU16 bs
  let (month, bs) ← takeU8 bs
  let (day, bs) ← takeU8 bs
  let (hour, bs) ← takeU8 bs
  let (minute, bs) ← takeU8 bs
  let (second, bs) ← takeU8 bs
  let (odometer, bs) ← takeU32 bs
  let (lat, bs) ← takeF64 bs
  let (lon, bs) ← takeF64 bs
  let (speed, bs) ← takeF64 bs
  let (course, bs) ← takeF64 bs
  let (sats, bs) ← takeU8 bs
  let (fix, bs) ← takeU8 bs
  let (ignition, bs) ← takeU8 bs
  let (battery, bs) ← takeF64 bs
  let (signal, bs) ← takeU16 bs
  let (io, bs) ← takeStr8 bs
  let (event, bs) ← takeU16 bs
  return ({ dev, fw, year, month, day, hour, minute, second, odometer, lat, lon, speed, course,
            sats, fix, ignition, battery, signal, io, event }, bs)

/-- The operands that follow the `fmt` byte; an unassigned `fmt`, a UDEC width over 10 and an SFIX
precision over 9 are reserved (30_encoding.md rules R68, R69). -/
def takeFieldFmt (fmt : Byte) (bs : Bytes) : Option (FieldFmt × Bytes) :=
  match fmt with
  | 0x00 => do
    let (s, bs) ← takeStr8 bs
    return (.str s, bs)
  | 0x01 => do
    let (w, bs) ← takeU8 bs
    let (v, bs) ← takeU32 bs
    if w.toNat > 10 then none else return (.udec w v, bs)
  | 0x02 => do
    let (v, bs) ← takeU32 bs
    return (.sdec v, bs)
  | 0x03 => do
    let (p, bs) ← takeU8 bs
    let (v, bs) ← takeF64 bs
    if p.toNat > 9 then none else return (.sfix p v, bs)
  | 0x04 => do
    let (year, bs) ← takeU16 bs
    let (month, bs) ← takeU8 bs
    let (day, bs) ← takeU8 bs
    return (.date8 year month day, bs)
  | 0x05 => do
    let (hour, bs) ← takeU8 bs
    let (minute, bs) ← takeU8 bs
    let (second, bs) ← takeU8 bs
    return (.time6 hour minute second, bs)
  | 0x06 => do
    let (b, bs) ← takeU8 bs
    return (.flag b, bs)
  | _ => none

/-! ### The opcode map (30_encoding.md rule R65) -/

/-- Whether an opcode byte is assigned (30_encoding.md rules R65, R70). -/
def opcodeAssigned (op : Byte) : Bool :=
  op ∈ ([0x10, 0x20, 0x21, 0x22, 0x30, 0x31, 0x32, 0x38, 0x40, 0x41, 0x42, 0x50, 0x51, 0x52, 0x53] :
    List Byte)

/-- The command an opcode stands for, with the operands read from the bytes after it, and the bytes
that remain (30_encoding.md rules R64 to R69). -/
def takeCommand (op : Byte) (bs : Bytes) : Option (Instr × Bytes) :=
  match op with
  | 0x10 => do
    let (data, bs) ← takeStr16 bs
    return (.crc16 data, bs)
  | 0x20 => do
    let (id, bs) ← takeStr8 bs
    return (.encBcd id, bs)
  | 0x21 => do
    let (deg, bs) ← takeF64 bs
    return (.encCoord deg, bs)
  | 0x22 => do
    let (course, bs) ← takeU16 bs
    let (flags, bs) ← takeU8 bs
    if flagsReserved flags then none else return (.encCourseStatus course flags, bs)
  | 0x30 => do
    let (code, bs) ← takeU8 bs
    let (payload, bs) ← takeStr8 bs
    let (serial, bs) ← takeU16 bs
    return (.buildFrame code payload serial, bs)
  | 0x31 => do
    let (id, bs) ← takeStr8 bs
    let (serial, bs) ← takeU16 bs
    return (.buildLogin id serial, bs)
  | 0x32 => do
    let (r, bs) ← takeLocRec bs
    if flagsReserved r.flags then none else return (.buildLocation r, bs)
  | 0x38 => do
    let (frame, bs) ← takeStr16 bs
    return (.parseFrame frame, bs)
  | 0x40 => some (.serialRead, bs)
  | 0x41 => some (.serialNext, bs)
  | 0x42 => do
    let (value, bs) ← takeU16 bs
    return (.serialLoad value, bs)
  | 0x50 => do
    let (fmt, bs) ← takeU8 bs
    let (f, bs) ← takeFieldFmt fmt bs
    return (.fmtField f, bs)
  | 0x51 => do
    let (tag, bs) ← takeStr8 bs
    let (count, bs) ← takeU8 bs
    let (fields, bs) ← takeStr8s count.toNat bs
    return (.textRecord tag fields, bs)
  | 0x52 => do
    let (r, bs) ← takeSttRec bs
    return (.buildStt r, bs)
  | 0x53 => do
    let (r, bs) ← takeSttRec bs
    return (.buildAlv r, bs)
  | _ => none

/-- Decodes a command. An empty command or an unassigned opcode is UnknownCommand, whatever the
operand bytes; too few bytes, bytes left over or a reserved value is MalformedCommand
(30_encoding.md rules R64, R69, R70; 60_exceptions.md rules R254, R255). -/
def decode : Bytes → Except CommandError Instr
  | [] => .error .unknownCommand
  | op :: operands =>
    if opcodeAssigned op then
      match takeCommand op operands with
      | some (i, []) => .ok i
      | _ => .error .malformedCommand
    else .error .unknownCommand

/-! ### The encoder (30_encoding.md rules R60, R62, R65 to R68) -/

def putWord (n : Nat) (v : BitVec (8 * n)) : Bytes := be n v.toNat

def putU16 (v : Word16) : Bytes := be 2 v.toNat

def putU32 (v : Word32) : Bytes := be 4 v.toNat

def putF64 (v : F64) : Bytes := be 8 v.toNat

def putStr8 (s : Bytes) : Bytes := be 1 s.length ++ s

def putStr16 (s : Bytes) : Bytes := be 2 s.length ++ s

def putLocRec (r : LocRec) : Bytes :=
  putU16 r.year ++ [r.month, r.day, r.hour, r.minute, r.second, r.gps] ++ putF64 r.lat ++
    putF64 r.lon ++ [r.speed] ++ putU16 r.course ++ [r.flags] ++ putU16 r.mcc ++ [r.mnc] ++
    putU16 r.lac ++ putU32 r.cell ++ putU16 r.serial

def putSttRec (r : SttRec) : Bytes :=
  putStr8 r.dev ++ putStr8 r.fw ++ putU16 r.year ++ [r.month, r.day, r.hour, r.minute, r.second] ++
    putU32 r.odometer ++ putF64 r.lat ++ putF64 r.lon ++ putF64 r.speed ++ putF64 r.course ++
    [r.sats, r.fix, r.ignition] ++ putF64 r.battery ++ putU16 r.signal ++ putStr8 r.io ++
    putU16 r.event

def putFieldFmt : FieldFmt → Bytes
  | .str s => 0x00 :: putStr8 s
  | .udec w v => 0x01 :: w :: putU32 v
  | .sdec v => 0x02 :: putU32 v
  | .sfix p v => 0x03 :: p :: putF64 v
  | .date8 year month day => 0x04 :: putU16 year ++ [month, day]
  | .time6 hour minute second => [0x05, hour, minute, second]
  | .flag b => [0x06, b]

/-- The bytes of the command that carries an instruction. -/
def encode : Instr → Bytes
  | .crc16 data => 0x10 :: putStr16 data
  | .encBcd id => 0x20 :: putStr8 id
  | .encCoord deg => 0x21 :: putF64 deg
  | .encCourseStatus course flags => 0x22 :: putU16 course ++ [flags]
  | .buildFrame code payload serial => 0x30 :: code :: putStr8 payload ++ putU16 serial
  | .buildLogin id serial => 0x31 :: putStr8 id ++ putU16 serial
  | .buildLocation r => 0x32 :: putLocRec r
  | .parseFrame frame => 0x38 :: putStr16 frame
  | .serialRead => [0x40]
  | .serialNext => [0x41]
  | .serialLoad value => 0x42 :: putU16 value
  | .fmtField f => 0x50 :: putFieldFmt f
  | .textRecord tag fields => 0x51 :: putStr8 tag ++ be 1 fields.length ++ fields.flatMap putStr8
  | .buildStt r => 0x52 :: putSttRec r
  | .buildAlv r => 0x53 :: putSttRec r

/-! ### The rows of the opcode table -/

/-- The first `nbits` bits of a command as bytes: byte k of the command is bits 8k+7 to 8k of `w`
(the numbering of `opcode_table.json`). -/
def tableBytes (nbits w : Nat) : Bytes :=
  (List.range (nbits / 8)).map fun k => BitVec.ofNat 8 (w / 256 ^ k)

/-- The longest command: CRC16 of 65535 bytes, and TEXT_RECORD with every string full
(30_encoding.md rule R66). -/
def longestCommand : Nat := 65538

/-- The command whose first `nbits` bits are `w` and whose further operand bytes are zero. A command
carries its own length (30_encoding.md rule R64), so the zero bytes end where its operand list does;
where the bytes begin no command, no zero byte is added (assumption log 6). -/
def tableCommand (nbits w : Nat) : Bytes :=
  match tableBytes nbits w with
  | [] => []
  | op :: given =>
    match takeCommand op (given ++ List.replicate longestCommand 0) with
    | some (i, _) =>
      op :: (given ++ List.replicate longestCommand 0).take
        (max given.length ((encode i).length - 1))
    | none => op :: given

/-- The instruction the decoder reads from a row of the opcode table. -/
def decodeTableWord (nbits w : Nat) : Option Instr :=
  match decode (tableCommand nbits w) with
  | .ok i => some i
  | .error _ => none

end Sys2Proof
end

