-- ==== Sys2Proof/Machine/State.lean ====
section
/-! DEFINITION. The state of one block instance (10_state.md rule R20; 70_reset_and_hazards.md rule
R280), the reasons a step can stop, and the state after reset. -/

namespace Sys2Proof.Machine

/-- The state of one block instance: the register SERIAL and what stands on the two streams of
20_memory.md rule R40. The block holds at most one pending command and one unread response
(70_reset_and_hazards.md rules R280, R286; assumption log 2). -/
structure State where
  /-- SERIAL, the serial counter of the binary frame family (10_state.md rule R20). -/
  serial : Word16
  /-- The command in progress: delivered whole and not yet answered
  (30_encoding.md rule R60; 70_reset_and_hazards.md rule R280). -/
  command : Option Bytes
  /-- The response the host has not read yet (30_encoding.md rule R61;
  70_reset_and_hazards.md rule R280). -/
  response : Option Bytes
deriving DecidableEq, Repr

/-- No behaviour of the block is a fault: every command answers, and an error is a status in its
response (60_exceptions.md rules R250, R258, R259; 93_implementation_defined.md Part 1). -/
inductive Fault : Type
deriving DecidableEq, Repr

/-- Why a step is refused. -/
inductive Refusal where
  /-- Raised by an arm of `exec` for an instruction that has no meaning yet. Safe. -/
  | notModelled (mnemonic : String)
  /-- Raised by `step` where a command stands beside a response the host has not read: the block
  defines no behaviour for overlapping commands (70_reset_and_hazards.md rule R286;
  93_implementation_defined.md row I14). Safe: the model stops where the spec says nothing. -/
  | overlappingCommand
deriving DecidableEq, Repr

/-- The state after reset: SERIAL is 1, no command is in progress and no response is pending
(70_reset_and_hazards.md rule R280). -/
def State.reset : State where
  serial := 1
  command := none
  response := none

end Sys2Proof.Machine
end

