-- ==== Sys2Proof/Machine/Ops.lean ====
section
/-! DEFINITION. The operations every command shares: the response layout, reading SERIAL, ending a
command with a result or with an error (the block's one form of exception), and what the host does
at the command port. -/

namespace Sys2Proof.Machine

/-! ### Responses (30_encoding.md rule R61; 60_exceptions.md rules R250, R252) -/

/-- The status code of an error (60_exceptions.md rule R250). -/
def statusCode : CommandError → Byte
  | .invalidIdentity => 0x01
  | .checksumError => 0x02
  | .frameError _ => 0x03
  | .lengthOverflow => 0x04
  | .coordRange => 0x05
  | .fieldRange => 0x06
  | .fieldChar => 0x07
  | .malformedCommand => 0x08
  | .unknownCommand => 0x09

/-- The reason byte of a FrameError (42_binary_frame.md rule R156). -/
def reasonByte : FrameReason → Byte
  | .tooShort => 0x01
  | .startMarker => 0x02
  | .lengthByte => 0x03
  | .endMarker => 0x04

/-- The bytes an error response carries: the reason of a FrameError and nothing else
(60_exceptions.md rule R252). -/
def errorDetail : CommandError → Bytes
  | .frameError reason => [reasonByte reason]
  | .invalidIdentity => []
  | .checksumError => []
  | .lengthOverflow => []
  | .coordRange => []
  | .fieldRange => []
  | .fieldChar => []
  | .malformedCommand => []
  | .unknownCommand => []

/-- `status ‖ be_2(rlen) ‖ result` (30_encoding.md rule R61). -/
def responseBytes (status : Byte) (result : Bytes) : Bytes :=
  status :: be 2 result.length ++ result

/-- The response of a command that succeeded (30_encoding.md rule R61). -/
def okResponse (result : Bytes) : Bytes := responseBytes 0x00 result

/-- The response of a command that failed (60_exceptions.md rule R252). -/
def errorResponse (e : CommandError) : Bytes := responseBytes (statusCode e) (errorDetail e)

/-- The most bytes a result can hold (30_encoding.md rule R61). -/
def resultLimit : Nat := 65535

/-! ### Ending a command -/

/-- The state after a command has been answered: SERIAL holds `serial`, the command is over and its
response waits for the host (20_memory.md rule R42). -/
def State.answered (serial : Word16) (bytes : Bytes) : State where
  serial := serial
  command := none
  response := some bytes

/-- Raising an error, the block's one form of exception: it answers the error's response, discards
every pending state write, so that SERIAL keeps its value, and transfers no control
(00_scope.md rule R13; 60_exceptions.md rules R252, R253, R258). -/
def raiseError (s : State) (e : CommandError) : State :=
  State.answered s.serial (errorResponse e)

/-- What a command asks for when it succeeds: the value SERIAL takes and the result. -/
structure Effect where
  serial : Word16
  result : Bytes
deriving DecidableEq, Repr

/-- The end of a command: its effects take place together, or it raises an error; a result over the
limit raises LengthOverflow (20_memory.md rule R42; 30_encoding.md rule R61). -/
def finish (s : State) : Except CommandError Effect → State
  | .ok eff =>
    if eff.result.length ≤ resultLimit then State.answered eff.serial (okResponse eff.result)
    else raiseError s .lengthOverflow
  | .error e => raiseError s e

/-- The end of a command that reads its operands and the parameters only, so that SERIAL keeps its
value (10_state.md rule R21). -/
def finishPure (s : State) : Except CommandError Bytes → State
  | .ok result => finish s (.ok { serial := s.serial, result := result })
  | .error e => finish s (.error e)

/-- Every command is answered: a step that runs one always has a next state
(60_exceptions.md rule R259; 70_reset_and_hazards.md rule R288). -/
def answer (s : State) (r : Except CommandError Effect) : Host.Outcome State Fault Refusal :=
  .next (finish s r)

/-- `answer` for a command that does not write SERIAL. -/
def answerPure (s : State) (r : Except CommandError Bytes) : Host.Outcome State Fault Refusal :=
  .next (finishPure s r)

/-! ### The host's side of the command port (20_memory.md rule R47; 70_reset_and_hazards.md rules
R280, R286) -/

/-- Whether the block can accept a command: none is in progress and no response is unread
(70_reset_and_hazards.md rule R286). -/
def State.ready (s : State) : Bool := s.command.isNone && s.response.isNone

/-- The host delivers a command. There is no such step while one is pending or its response is
unread (70_reset_and_hazards.md rule R286). -/
def State.deliver (s : State) (cmd : Bytes) : Option State :=
  if s.ready then some { s with command := some cmd } else none

/-- The host reads the response and so takes it off the response stream. -/
def State.takeResponse (s : State) : Option (Bytes × State) :=
  match s.response with
  | some bytes => some (bytes, { s with response := none })
  | none => none

/-- The host applies reset, which leaves nothing of the state before it
(70_reset_and_hazards.md rule R280). -/
def State.applyReset (_ : State) : State := State.reset

end Sys2Proof.Machine
end

