-- ==== Sys2Proof/Machine/Operands.lean ====
section
/-! DEFINITION. The values of operands: signed integers, the exact value of a binary64 operand and
its rounding (00_scope.md rules R11, R12), and the decimal spelling of a number (rule R13). -/

namespace Sys2Proof.Machine

/-! ### binary64 (00_scope.md rule R12; 30_encoding.md rule R63; assumption log 8) -/

/-- The sign, bit 63. -/
def f64Negative (f : F64) : Bool := f.getLsbD 63

/-- The biased exponent, bits 62:52. -/
def f64Exponent (f : F64) : Nat := (f.toNat / 2 ^ 52) % 2 ^ 11

/-- The fraction, bits 51:0. -/
def f64Fraction (f : F64) : Nat := f.toNat % 2 ^ 52

/-- False for the infinities and every NaN, whose exponent field is 0x7FF. -/
def f64Finite (f : F64) : Bool := f64Exponent f != 0x7FF

/-- The exact value of a finite operand is `f64Num f / f64Den f`. The magnitude of the numerator: the
significand, with the hidden bit of a normal number, times the power of two above the fraction. -/
def f64Magnitude (f : F64) : Nat :=
  if f64Exponent f = 0 then f64Fraction f
  else (2 ^ 52 + f64Fraction f) * 2 ^ (f64Exponent f - 1075)

/-- The signed numerator of the exact value. -/
def f64Num (f : F64) : Int :=
  if f64Negative f then -(f64Magnitude f : Int) else (f64Magnitude f : Int)

/-- The denominator of the exact value: 2 to the 1074 for a subnormal operand and 2 to the
`1075 - exponent` for a normal one below 2 to the 53. -/
def f64Den (f : F64) : Nat := 2 ^ (1075 - max 1 (f64Exponent f))

/-- Whether the absolute value of a finite operand is at most `limit`. -/
def f64AbsLe (f : F64) (limit : Nat) : Bool := f64Magnitude f ≤ limit * f64Den f

/-- Whether the absolute value of a finite operand is below `bound`. -/
def f64AbsLt (f : F64) (bound : Nat) : Bool := f64Magnitude f < bound * f64Den f

/-- The rational `num / den` rounded to the nearest integer, a tie to the even one
(00_scope.md rule R12). -/
def rhe (num : Int) (den : Nat) : Int :=
  let q := num / (den : Int)
  let twice := 2 * (num % (den : Int))
  if twice < den then q
  else if twice > den then q + 1
  else if q % 2 = 0 then q else q + 1

/-! ### Decimal spelling (00_scope.md rule R13) -/

/-- The ASCII digit of a number below 10 (00_scope.md rule R10). -/
def digitByte (d : Nat) : Byte := BitVec.ofNat 8 (0x30 + d)

/-- The decimal digits of `v`, given at least as much fuel as it has digits. -/
def decDigits : Nat → Nat → Bytes
  | 0, v => [digitByte (v % 10)]
  | fuel + 1, v =>
    if v < 10 then [digitByte v] else decDigits fuel (v / 10) ++ [digitByte (v % 10)]

/-- The shortest ASCII decimal spelling of `v` (00_scope.md rule R13). -/
def dec (v : Nat) : Bytes := decDigits v v

/-- `n` ASCII zeros. -/
def zeroDigits (n : Nat) : Bytes := List.replicate n 0x30

/-! ### Text bytes (44_text_frame.md rule R200) -/

/-- A legal text byte: 0x20 to 0x7E, but not the delimiter 0x3B. -/
def legalTextByte (x : Byte) : Bool := 0x20 ≤ x.toNat && x.toNat ≤ 0x7E && x != 0x3B

/-- `check_text`: every byte is a legal text byte, else FieldChar. -/
def checkText (s : Bytes) : Except CommandError Unit :=
  if s.all legalTextByte then .ok () else .error .fieldChar

/-! ### Legal parameters (00_scope.md rule R8; 44_text_frame.md rules R225, R226) -/

/-- 1 to 255 legal text bytes that end in `ending`. -/
def legalTag (ending tag : Bytes) : Bool :=
  1 ≤ tag.length && tag.length ≤ 255 && tag.all legalTextByte && ending.isSuffixOf tag

/-- A list of field numbers that rises strictly. -/
def strictlyIncreasing : List SttField → Bool
  | [] => true
  | [_] => true
  | f :: g :: rest => f.number < g.number && strictlyIncreasing (g :: rest)

/-- The parameter values an instance may be built with (00_scope.md rule R8). -/
def legalParams (P : Params) : Bool :=
  (P.cellIdWidth == 3 || P.cellIdWidth == 4) &&
    P.pLatLon ≤ 9 && P.pSpeed ≤ 9 && P.pCourse ≤ 9 && P.pBatt ≤ 9 &&
    legalTag tagSttEnding P.tagStt && legalTag tagAlvEnding P.tagAlv &&
    1 ≤ P.alvFields.length && P.alvFields.length ≤ 15 && strictlyIncreasing P.alvFields

end Sys2Proof.Machine
end

