-- ==== Sys2Proof/Machine/Flags.lean ====
section
/-! DEFINITION. The block has no status flags or condition codes (10_state.md rule R25). What the
spec calls flags is the operand byte of the course/status field, bit 0 fix valid, bit 4 south, bit 5
west (41_field_encoders.md rule R133). -/

namespace Sys2Proof.Machine

/-- The status bits packed under the course: bits 0, 4 and 5 of the flags operand, the other bits 0
(41_field_encoders.md rules R133, R134). -/
def statusBits (flags : Byte) : Byte := flags &&& 0b00110001

end Sys2Proof.Machine
end

