-- ==== Sys2Proof/Machine/Checksum.lean ====
section
/-! DEFINITION. The checksum unit: the CRC function and the CRC16 command (40_crc.md). -/

namespace Sys2Proof.Machine

/-- The CCITT polynomial (00_scope.md rule R7). -/
def crcPoly : Word16 := 0x1021

/-- One round: shift left by 1, and XOR with the polynomial if the bit shifted out was 1
(40_crc.md rule R100). -/
def crcRound (x : Word16) : Word16 :=
  if x.getLsbD 15 then (x <<< 1) ^^^ crcPoly else x <<< 1

/-- Eight rounds. -/
def crcRounds (x : Word16) : Word16 :=
  crcRound (crcRound (crcRound (crcRound (crcRound (crcRound (crcRound (crcRound x)))))))

/-- `crc_byte`: folds one byte into the accumulator (40_crc.md rule R100). -/
def crcByte (c : Word16) (b : Byte) : Word16 := crcRounds (c ^^^ (b.setWidth 16 <<< 8))

/-- `crc16`: folds the bytes in order from the initial value 0, with no final XOR
(40_crc.md rule R102; 90_conflicts.md C1). -/
def crc16 (s : Bytes) : Word16 := s.foldl crcByte 0

/-- CRC16 (40_crc.md rule R101). -/
def execCrc16 (data : Bytes) (s : State) : Host.Outcome State Fault Refusal :=
  answerPure s (.ok (putU16 (crc16 data)))

end Sys2Proof.Machine
end

