-- ==== Sys2Proof/Machine/FieldEncoders.lean ====
section
/-! DEFINITION. The BCD identity encoder and the coordinate and course/status encoders, with their
three commands (41_field_encoders.md). -/

namespace Sys2Proof.Machine

/-! ### BCD identity -/

/-- An ASCII digit byte, 0x30 to 0x39 (00_scope.md rule R10). -/
def isDigit (b : Byte) : Bool := 0x30 ≤ b.toNat && b.toNat ≤ 0x39

/-- A valid identity: 15 or 16 ASCII digits (41_field_encoders.md rule R121; 90_conflicts.md C3). -/
def validIdentity (id : Bytes) : Bool :=
  (id.length == 15 || id.length == 16) && id.all isDigit

/-- The identity padded to 16 digits (41_field_encoders.md rule R122; 90_conflicts.md C6). -/
def padIdentity (id : Bytes) : Bytes := if id.length = 15 then 0x30 :: id else id

/-- Packs digits two per byte, the first in the high nibble (41_field_encoders.md rule R123). -/
def packDigits : Bytes → Bytes
  | hi :: lo :: rest => ((hi - 0x30) <<< 4 ||| (lo - 0x30)) :: packDigits rest
  | [_] => []
  | [] => []

/-- `bcd8` (41_field_encoders.md rules R121 to R123). -/
def bcd8 (id : Bytes) : Except CommandError Bytes :=
  if validIdentity id then .ok (packDigits (padIdentity id)) else .error .invalidIdentity

/-- ENC_BCD (41_field_encoders.md rule R120). -/
def execEncBcd (id : Bytes) (s : State) : Host.Outcome State Fault Refusal :=
  answerPure s (bcd8 id)

/-! ### Coordinates -/

/-- Units per degree (00_scope.md rule R7). -/
def coordScale : Nat := 1800000

/-- The greatest latitude and longitude, inclusive (41_field_encoders.md rule R127). -/
def latLimit : Nat := 90

def lonLimit : Nat := 180

/-- `coord`: the magnitude of a coordinate in units of 1/1800000 degree, rounded once from the exact
value (41_field_encoders.md rule R126; 90_conflicts.md C5, C7). -/
def coord (f : F64) (limit : Nat) : Except CommandError Nat :=
  if !f64Finite f then .error .coordRange
  else if !f64AbsLe f limit then .error .coordRange
  else .ok (rhe (f64Magnitude f * coordScale : Nat) (f64Den f)).toNat

/-- ENC_COORD (41_field_encoders.md rule R125). -/
def execEncCoord (deg : F64) (s : State) : Host.Outcome State Fault Refusal :=
  answerPure s ((coord deg lonLimit).map fun v => be 4 v)

/-! ### Course and status -/

/-- The course reduced to 0 to 359, with 359 in place of 0 (41_field_encoders.md rules R131, R132). -/
def packedCourse (c : Int) : Nat :=
  if c % 360 = 0 then 359 else (c % 360).toNat

/-- `course_status`: the course in bits 15:6 and the status bits in bits 5:0
(41_field_encoders.md rule R134). -/
def courseStatus (c : Int) (flags : Byte) : Except CommandError Word16 :=
  if flagsReserved flags then .error .malformedCommand
  else .ok ((BitVec.ofNat 16 (packedCourse c) <<< 6) ||| (statusBits flags).setWidth 16)

/-- ENC_COURSE_STATUS (41_field_encoders.md rule R130). -/
def execEncCourseStatus (course : Word16) (flags : Byte) (s : State) :
    Host.Outcome State Fault Refusal :=
  answerPure s ((courseStatus course.toInt flags).map putU16)

end Sys2Proof.Machine
end

