-- ==== Sys2Proof/Machine/BinaryFrame.lean ====
section
/-! DEFINITION. The binary frame assembler and checker, tracker family A (42_binary_frame.md). -/

namespace Sys2Proof.Machine

/-- The start marker (00_scope.md rule R7; 90_conflicts.md C4). -/
def startMarker : Bytes := [0x78, 0x78]

/-- The end marker (00_scope.md rule R7). -/
def endMarker : Bytes := [0x0D, 0x0A]

/-- The protocol codes (42_binary_frame.md rule R160). -/
def loginCode : Byte := 0x01

def locationCode : Byte := 0x12

/-- The largest payload (42_binary_frame.md rule R157). -/
def payloadLimit : Nat := 250

/-- The bytes the CRC covers: length, protocol code, payload and serial
(42_binary_frame.md rule R158). -/
def frameBody (code : Byte) (payload : Bytes) (serial : Word16) : Bytes :=
  be 1 (1 + payload.length + 2 + 2) ++ [code] ++ payload ++ putU16 serial

/-- `frame` (42_binary_frame.md rule R158; 90_conflicts.md C2). -/
def frame (code : Byte) (payload : Bytes) (serial : Word16) : Except CommandError Bytes :=
  if payload.length > payloadLimit then .error .lengthOverflow
  else
    let body := frameBody code payload serial
    .ok (startMarker ++ body ++ putU16 (crc16 body) ++ endMarker)

/-- BUILD_FRAME (42_binary_frame.md rule R150). -/
def execBuildFrame (code : Byte) (payload : Bytes) (serial : Word16) (s : State) :
    Host.Outcome State Fault Refusal :=
  answerPure s (frame code payload serial)

/-- BUILD_LOGIN (42_binary_frame.md rule R151). -/
def execBuildLogin (id : Bytes) (serial : Word16) (s : State) :
    Host.Outcome State Fault Refusal :=
  answerPure s (do
    let payload ← bcd8 id
    frame loginCode payload serial)

/-- The location payload from the values of its encoded fields (42_binary_frame.md rules R154,
R155). -/
def locationPayload (P : Params) (r : LocRec) (la lo : Nat) (cs : Word16) : Bytes :=
  be 1 (r.year.toNat % 100) ++ [r.month, r.day, r.hour, r.minute, r.second, r.gps] ++
    be 4 la ++ be 4 lo ++ [r.speed] ++ putU16 cs ++ putU16 r.mcc ++ [r.mnc] ++ putU16 r.lac ++
    be P.cellIdWidth r.cell.toNat

/-- A location frame under parameters `P`: latitude is checked before longitude
(42_binary_frame.md rule R153). -/
def locationFrame (P : Params) (r : LocRec) : Except CommandError Bytes := do
  if flagsReserved r.flags then throw .malformedCommand
  let la ← coord r.lat latLimit
  let lo ← coord r.lon lonLimit
  let cs ← courseStatus r.course.toInt r.flags
  frame locationCode (locationPayload P r la lo cs) r.serial

/-- BUILD_LOCATION (42_binary_frame.md rule R153). -/
def execBuildLocation (r : LocRec) (s : State) : Host.Outcome State Fault Refusal :=
  answerPure s (locationFrame Config.params r)

/-! ### Frame checker -/

/-- `s[a..b)`: bytes a up to b - 1 (00_scope.md rule R10). -/
def slice (s : Bytes) (a b : Nat) : Bytes := (s.drop a).take (b - a)

/-- The checks of PARSE_FRAME in their order, and the fields of a frame that passes them: code,
payload length, payload, serial and CRC (42_binary_frame.md rule R156). -/
def parsedFrame (fr : Bytes) : Except CommandError Bytes :=
  let n := fr.length
  let len := (fr.getD 2 0).toNat
  if n < 10 then .error (.frameError .tooShort)
  else if slice fr 0 2 != startMarker then .error (.frameError .startMarker)
  else if len < 5 || n != len + 5 then .error (.frameError .lengthByte)
  else if slice fr (n - 2) n != endMarker then .error (.frameError .endMarker)
  else if (crc16 (slice fr 2 (len + 1))).toNat != fromBe (slice fr (len + 1) (len + 3)) then
    .error .checksumError
  else
    let p := len - 5
    .ok ([fr.getD 3 0] ++ be 1 p ++ slice fr 4 (4 + p) ++ slice fr (4 + p) (6 + p) ++
      slice fr (6 + p) (8 + p))

/-- PARSE_FRAME (42_binary_frame.md rule R156). -/
def execParseFrame (fr : Bytes) (s : State) : Host.Outcome State Fault Refusal :=
  answerPure s (parsedFrame fr)

end Sys2Proof.Machine
end

