-- ==== Sys2Proof/Machine/SerialCounter.lean ====
section
/-! DEFINITION. The serial counter's three commands (43_serial_counter.md). -/

namespace Sys2Proof.Machine

/-- The increment law: one more, modulo 2 to the 16 (43_serial_counter.md rule R183;
90_conflicts.md C10). -/
def nextSerial (v : Word16) : Word16 := v + 1

/-- SERIAL_READ (43_serial_counter.md rule R180). -/
def execSerialRead (s : State) : Host.Outcome State Fault Refusal :=
  answerPure s (.ok (putU16 s.serial))

/-- SERIAL_NEXT: fetch and increment (43_serial_counter.md rule R181). -/
def execSerialNext (s : State) : Host.Outcome State Fault Refusal :=
  answer s (.ok { serial := nextSerial s.serial, result := putU16 s.serial })

/-- SERIAL_LOAD (43_serial_counter.md rule R182). -/
def execSerialLoad (value : Word16) (s : State) : Host.Outcome State Fault Refusal :=
  answer s (.ok { serial := value, result := [] })

end Sys2Proof.Machine
end

