-- ==== Sys2Proof/Machine/TextFrame.lean ====
section
/-! DEFINITION. The text field formatter and the text frame assembler, tracker family B
(44_text_frame.md). -/

namespace Sys2Proof.Machine

/-! ### Field formats -/

/-- STR: text copied verbatim (44_text_frame.md rule R201). -/
def fmtStr (s : Bytes) : Except CommandError Bytes := do
  checkText s
  return s

/-- UDEC: unsigned decimal of exactly `w` digits, or unpadded for `w = 0`
(44_text_frame.md rule R202). -/
def fmtUdec (w v : Nat) : Except CommandError Bytes :=
  if w = 0 then .ok (dec v)
  else if (dec v).length > w then .error .fieldRange
  else .ok (zeroDigits (w - (dec v).length) ++ dec v)

/-- SDEC: signed decimal (44_text_frame.md rule R203). -/
def fmtSdec (v : Int) : Bytes := if v < 0 then 0x2D :: dec v.natAbs else dec v.natAbs

/-- The values SFIX refuses start at 10 to the 9 (44_text_frame.md rule R204). -/
def sfixBound : Nat := 10 ^ 9

/-- The spelling of `q / 10^p` with exactly `p` fraction digits (44_text_frame.md rule R204). -/
def fixedText (p : Nat) (q : Int) : Bytes :=
  let m := q.natAbs
  let ip := m / 10 ^ p
  let fp := m - ip * 10 ^ p
  let digits :=
    if p > 0 then dec ip ++ [0x2E] ++ zeroDigits (p - (dec fp).length) ++ dec fp else dec ip
  if q < 0 then 0x2D :: digits else digits

/-- SFIX: signed fixed-point decimal, the exact value rounded once (44_text_frame.md rule R204). -/
def fmtSfix (p : Nat) (f : F64) : Except CommandError Bytes :=
  if !f64Finite f then .error .fieldRange
  else if !f64AbsLt f sfixBound then .error .fieldRange
  else .ok (fixedText p (rhe (f64Num f * 10 ^ p) (f64Den f)))

/-- DATE8: `YYYYMMDD` (44_text_frame.md rule R205). -/
def fmtDate8 (y m d : Nat) : Except CommandError Bytes :=
  if y > 9999 || m > 99 || d > 99 then .error .fieldRange
  else do
    let ys ← fmtUdec 4 y
    let ms ← fmtUdec 2 m
    let ds ← fmtUdec 2 d
    return ys ++ ms ++ ds

/-- TIME6: `HHMMSS` (44_text_frame.md rule R206). -/
def fmtTime6 (h mi s : Nat) : Except CommandError Bytes :=
  if h > 99 || mi > 99 || s > 99 then .error .fieldRange
  else do
    let hs ← fmtUdec 2 h
    let ms ← fmtUdec 2 mi
    let ss ← fmtUdec 2 s
    return hs ++ ms ++ ss

/-- FLAG: `0` or `1` (44_text_frame.md rule R207). -/
def fmtFlag (b : Byte) : Except CommandError Bytes :=
  if b = 0 then .ok [0x30] else if b = 1 then .ok [0x31] else .error .fieldRange

/-- The text of one sub-format; a reserved width or precision is MalformedCommand
(44_text_frame.md rule R210). -/
def formatField : FieldFmt → Except CommandError Bytes
  | .str s => fmtStr s
  | .udec w v => if w.toNat > 10 then .error .malformedCommand else fmtUdec w.toNat v.toNat
  | .sdec v => .ok (fmtSdec v.toInt)
  | .sfix p v => if p.toNat > 9 then .error .malformedCommand else fmtSfix p.toNat v
  | .date8 year month day => fmtDate8 year.toNat month.toNat day.toNat
  | .time6 hour minute second => fmtTime6 hour.toNat minute.toNat second.toNat
  | .flag b => fmtFlag b

/-- FMT_FIELD (44_text_frame.md rule R210). -/
def execFmtField (f : FieldFmt) (s : State) : Host.Outcome State Fault Refusal :=
  answerPure s (formatField f)

/-! ### Records -/

/-- The delimiter `;` and the terminator, a carriage return (00_scope.md rule R7). -/
def delimiter : Byte := 0x3B

def terminator : Byte := 0x0D

/-- The tag and the fields with one delimiter between neighbours, and the terminator
(44_text_frame.md rule R221). -/
def joinRecord (tag : Bytes) (fields : List Bytes) : Bytes :=
  tag ++ fields.flatMap (fun f => delimiter :: f) ++ [terminator]

/-- `record` (44_text_frame.md rule R221). -/
def record (tag : Bytes) (fields : List Bytes) : Except CommandError Bytes :=
  if tag.length = 0 then .error .malformedCommand
  else do
    checkText tag
    fields.forM checkText
    if (joinRecord tag fields).length > 65535 then throw .lengthOverflow
    return joinRecord tag fields

/-- TEXT_RECORD (44_text_frame.md rule R220). -/
def execTextRecord (tag : Bytes) (fields : List Bytes) (s : State) :
    Host.Outcome State Fault Refusal :=
  answerPure s (record tag fields)

/-! ### Status and alive records -/

/-- A coordinate field: CoordRange unless finite and within the limit, then SFIX
(44_text_frame.md rule R222). -/
def coordField (p limit : Nat) (f : F64) : Except CommandError Bytes :=
  if f64Finite f && f64AbsLe f limit then fmtSfix p f else .error .coordRange

/-- The text of one field of the status record (44_text_frame.md rule R222). -/
def sttField (P : Params) (r : SttRec) : SttField → Except CommandError Bytes
  | .deviceId => fmtStr r.dev
  | .firmware => fmtStr r.fw
  | .date => fmtDate8 r.year.toNat r.month.toNat r.day.toNat
  | .time => fmtTime6 r.hour.toNat r.minute.toNat r.second.toNat
  | .odometer => fmtUdec 5 r.odometer.toNat
  | .latitude => coordField P.pLatLon latLimit r.lat
  | .longitude => coordField P.pLatLon lonLimit r.lon
  | .speed => fmtSfix P.pSpeed r.speed
  | .course => fmtSfix P.pCourse r.course
  | .satellites => fmtUdec 0 r.sats.toNat
  | .fixFlag => fmtFlag r.fix
  | .ignitionFlag => fmtFlag r.ignition
  | .battery => fmtSfix P.pBatt r.battery
  | .signal => .ok (fmtSdec r.signal.toInt)
  | .ioStatus => fmtStr r.io
  | .eventCode => fmtUdec 0 r.event.toNat

/-- The texts of the listed fields, in list order; the first error stops the command
(44_text_frame.md rules R223, R224). -/
def sttFields (P : Params) (r : SttRec) : List SttField → Except CommandError (List Bytes)
  | [] => .ok []
  | k :: ks => do
    let g ← sttField P r k
    let gs ← sttFields P r ks
    return g :: gs

/-- The status record under parameters `P` (44_text_frame.md rule R223). -/
def sttRecord (P : Params) (r : SttRec) : Except CommandError Bytes := do
  let gs ← sttFields P r SttField.all
  record P.tagStt gs

/-- The alive record under parameters `P`: fields that are not listed are neither formatted nor
checked (44_text_frame.md rule R224). -/
def alvRecord (P : Params) (r : SttRec) : Except CommandError Bytes := do
  let gs ← sttFields P r P.alvFields
  record P.tagAlv gs

/-- BUILD_STT (44_text_frame.md rule R223). -/
def execBuildStt (r : SttRec) (s : State) : Host.Outcome State Fault Refusal :=
  answerPure s (sttRecord Config.params r)

/-- BUILD_ALV (44_text_frame.md rule R224). -/
def execBuildAlv (r : SttRec) (s : State) : Host.Outcome State Fault Refusal :=
  answerPure s (alvRecord Config.params r)

end Sys2Proof.Machine
end

