-- ==== Sys2Proof/Machine/Dispatch.lean ====
section
/-! DEFINITION. Which meaning each command has: one arm per constructor of `Instr`
(30_encoding.md rule R65). -/

namespace Sys2Proof.Machine

def exec (i : Instr) (s : State) : Host.Outcome State Fault Refusal :=
  match i with
  -- checksum unit
  | .crc16 data => Sys2Proof.Machine.execCrc16 data s
  -- BCD identity, coordinate and course/status encoders
  | .encBcd id => Sys2Proof.Machine.execEncBcd id s
  | .encCoord deg => Sys2Proof.Machine.execEncCoord deg s
  | .encCourseStatus course flags => Sys2Proof.Machine.execEncCourseStatus course flags s
  -- binary frame assembler and checker
  | .buildFrame code payload serial => Sys2Proof.Machine.execBuildFrame code payload serial s
  | .buildLogin id serial => Sys2Proof.Machine.execBuildLogin id serial s
  | .buildLocation r => Sys2Proof.Machine.execBuildLocation r s
  | .parseFrame fr => Sys2Proof.Machine.execParseFrame fr s
  -- serial counter
  | .serialRead => Sys2Proof.Machine.execSerialRead s
  | .serialNext => Sys2Proof.Machine.execSerialNext s
  | .serialLoad value => Sys2Proof.Machine.execSerialLoad value s
  -- text field formatter and text frame assembler
  | .fmtField f => Sys2Proof.Machine.execFmtField f s
  | .textRecord tag fields => Sys2Proof.Machine.execTextRecord tag fields s
  | .buildStt r => Sys2Proof.Machine.execBuildStt r s
  | .buildAlv r => Sys2Proof.Machine.execBuildAlv r s

end Sys2Proof.Machine
end

