-- ==== Sys2Proof/Machine/Step.lean ====
section
/-! DEFINITION. One step of the block, and where the host's test places an instruction. -/

namespace Sys2Proof.Machine

/-- One step. With no command in progress the block waits (70_reset_and_hazards.md rule R281;
assumption log 3). A command in progress is decoded and executed, or answers the error its decoding
raises (30_encoding.md rule R64; 60_exceptions.md rule R255). A command beside an unread response is
outside the spec and refused (70_reset_and_hazards.md rule R286; assumption log 4). -/
def step (s : State) : Host.Outcome State Fault Refusal :=
  match s.command with
  | none => .next s
  | some cmd =>
    match s.response with
    | some _ => .refused .overlappingCommand
    | none =>
      match decode cmd with
      | .ok i => exec i s
      | .error e => .next (raiseError s e)

/-- The state in which the command of a table row is in progress, so that the next step decodes and
executes it; the response stream is empty, as it must be for a command to be delivered
(70_reset_and_hazards.md rule R286; assumption logs 5 and 6). -/
def State.withFetchWord (s : State) (nbits w : Nat) : State :=
  { s with command := some (tableCommand nbits w), response := none }

end Sys2Proof.Machine
end

