-- ==== Sys2Proof/Safety.lean ====
section
/-! DEFINITION. What counts as a safe state of the block, the transactions a host makes with it, and
the readings of bytes and numbers, independent of the machine's own functions, in whose terms the
statements speak. -/

namespace Sys2Proof.Machine

/-! ### Safe states -/

/-- One command at a time: no command stands beside an unread response
(70_reset_and_hazards.md rule R286). -/
def State.portDiscipline (s : State) : Bool := s.command.isNone || s.response.isNone

/-- A response the block may give: a status of 60_exceptions.md rule R250, an `rlen` equal to the
number of result bytes, no result with an error, but for the one reason byte of a FrameError
(30_encoding.md rule R61; 60_exceptions.md rule R252). -/
def legalResponse : Bytes → Bool
  | status :: hi :: lo :: result =>
    hi.toNat * 256 + lo.toNat == result.length &&
      (status == 0x00 ||
        (status == 0x03 && (result == [0x01] || result == [0x02] || result == [0x03] ||
          result == [0x04])) ||
        (status != 0x03 && 0x01 ≤ status.toNat && status.toNat ≤ 0x09 && result == []))
  | _ => false

/-- The invariant of the block: the port discipline holds, and a pending response is a legal one. -/
def State.safe (s : State) : Bool := s.portDiscipline && s.response.all legalResponse

/-! ### Transactions -/

/-- The state in which `cmd` has just been delivered to a block whose counter holds `n`. -/
def State.holding (n : Word16) (cmd : Bytes) : State where
  serial := n
  command := some cmd
  response := none

/-- The state in which the block waits for a command and its counter holds `n`. -/
def State.idle (n : Word16) : State where
  serial := n
  command := none
  response := none

/-- The state that answers a step, if there is one. -/
def nextOf : Host.Outcome State Fault Refusal → Option State
  | .next s => some s
  | .fault _ => none
  | .refused _ => none

/-- One transaction: the host delivers a command, the block steps, the host reads the response
(20_memory.md rules R46, R47). -/
def transact (s : State) (cmd : Bytes) : Option (Bytes × State) := do
  let delivered ← s.deliver cmd
  let done ← nextOf (step delivered)
  done.takeResponse

/-- A sequence of transactions, with the responses in order (20_memory.md rule R46). -/
def transactAll (s : State) : List Bytes → Option (List Bytes × State)
  | [] => some ([], s)
  | cmd :: cmds => do
    let (r, s') ← transact s cmd
    let (rs, s'') ← transactAll s' cmds
    return (r :: rs, s'')

/-! ### Numbers -/

/-- The exact rational value of a finite binary64 operand (00_scope.md rule R12). -/
def exactQ (f : F64) : ℚ := (f64Num f : ℚ) / (f64Den f : ℚ)

/-- `n` is the integer nearest to `q`, the even one of two equally near (00_scope.md rule R12). -/
def IsNearestEven (q : ℚ) (n : ℤ) : Prop := |q - n| ≤ 1 / 2 ∧ (|q - n| = 1 / 2 → Even n)

/-- Finite and of magnitude at most `limit` (41_field_encoders.md rule R126). -/
def WithinLimit (f : F64) (limit : ℚ) : Prop := f64Finite f = true ∧ |exactQ f| ≤ limit

/-- Finite and of magnitude below 10 to the 9 (44_text_frame.md rule R204). -/
def SfixInRange (f : F64) : Prop := f64Finite f = true ∧ |exactQ f| < 10 ^ 9

/-- The 16 BCD digits of packed bytes as ASCII digits, high nibble first
(41_field_encoders.md rule R124). -/
def unpackBcd (out : Bytes) : Bytes :=
  out.flatMap fun b => [digitByte (b.toNat / 16), digitByte (b.toNat % 16)]

/-- Every byte is an ASCII digit. -/
def AllDigits (s : Bytes) : Prop := ∀ b ∈ s, 0x30 ≤ b.toNat ∧ b.toNat ≤ 0x39

/-- The number a string of ASCII digits spells. -/
def decimalValue (s : Bytes) : Nat := s.foldl (fun v b => v * 10 + (b.toNat - 0x30)) 0

/-- A legal text byte, 0x20 to 0x7E but not 0x3B (44_text_frame.md rule R200). -/
def LegalText (s : Bytes) : Prop := ∀ b ∈ s, 0x20 ≤ b.toNat ∧ b.toNat ≤ 0x7E ∧ b ≠ 0x3B

/-- The FMT_FIELD form of each field of the status record (44_text_frame.md rule R222, its columns
"SttRec operand(s)" and "format"). -/
def sttFormat (P : Params) (r : SttRec) : SttField → FieldFmt
  | .deviceId => .str r.dev
  | .firmware => .str r.fw
  | .date => .date8 r.year r.month r.day
  | .time => .time6 r.hour r.minute r.second
  | .odometer => .udec 5 r.odometer
  | .latitude => .sfix (BitVec.ofNat 8 P.pLatLon) r.lat
  | .longitude => .sfix (BitVec.ofNat 8 P.pLatLon) r.lon
  | .speed => .sfix (BitVec.ofNat 8 P.pSpeed) r.speed
  | .course => .sfix (BitVec.ofNat 8 P.pCourse) r.course
  | .satellites => .udec 0 (r.sats.zeroExtend 32)
  | .fixFlag => .flag r.fix
  | .ignitionFlag => .flag r.ignition
  | .battery => .sfix (BitVec.ofNat 8 P.pBatt) r.battery
  | .signal => .sdec (r.signal.signExtend 32)
  | .ioStatus => .str r.io
  | .eventCode => .udec 0 (r.event.zeroExtend 32)

/-- The status a field of the status record is refused with (60_exceptions.md rule R251). -/
def fieldErrorStatus : SttField → Byte
  | .deviceId | .firmware | .ioStatus => 0x07
  | .latitude | .longitude => 0x05
  | .date | .time | .odometer | .speed | .course | .satellites | .fixFlag | .ignitionFlag
  | .battery | .signal | .eventCode => 0x06

/-- Whether a status-record operand fits its field's format and limit
(44_text_frame.md rule R222). -/
def SttInRange (r : SttRec) : SttField → Prop
  | .deviceId => LegalText r.dev
  | .firmware => LegalText r.fw
  | .date => r.year.toNat ≤ 9999 ∧ r.month.toNat ≤ 99 ∧ r.day.toNat ≤ 99
  | .time => r.hour.toNat ≤ 99 ∧ r.minute.toNat ≤ 99 ∧ r.second.toNat ≤ 99
  | .odometer => r.odometer.toNat ≤ 99999
  | .latitude => WithinLimit r.lat 90
  | .longitude => WithinLimit r.lon 180
  | .speed => SfixInRange r.speed
  | .course => SfixInRange r.course
  | .satellites => True
  | .fixFlag => r.fix.toNat ≤ 1
  | .ignitionFlag => r.ignition.toNat ≤ 1
  | .battery => SfixInRange r.battery
  | .signal => True
  | .ioStatus => LegalText r.io
  | .eventCode => True

end Sys2Proof.Machine
end

