-- ==== Sys2Proof/Certificates/Slice0/Obligations.lean ====
section
/-! DEFINITION. What the spec says the block does, as statements about the model. `State.holding n
cmd` is the state in which the command `cmd` has just been delivered to a block whose SERIAL is `n`,
and `State.answered n bytes` the state in which it has been answered: SERIAL is `n`, no command is
in progress and `bytes` is the pending response. So an equation `… = .next (State.answered n bytes)`
says what the whole next state is: the response, SERIAL (unchanged where `n` is the old value), and
that the command is over. -/

open Sys2Proof Sys2Proof.Machine

/-! ### Reset, the step and the command port -/

/-- 70_reset_and_hazards.md R280: what reset leaves, whatever the state before it. -/
def Obligations.ResetLeavesSerialOne : Prop :=
  State.reset.serial = 1 ∧ State.reset.command = none ∧ State.reset.response = none ∧
    ∀ s : State, s.applyReset = State.reset

/-- 70_reset_and_hazards.md R281: with no command in progress the block waits. That a waiting step
leaves the state as it is, is the model's reading (assumption log 3). -/
def Obligations.BlockWaitsForCommand : Prop :=
  ∀ s : State, s.command = none → step s = .next s

/-- A step decodes the delivered command and executes it (30_encoding.md R60, R64). -/
def Obligations.StepRunsDecodedCommand : Prop :=
  ∀ (n : Word16) (cmd : Bytes) (i : Instr), decode cmd = .ok i →
    step (State.holding n cmd) = exec i (State.holding n cmd)

/-- A command that does not decode is answered with UnknownCommand or MalformedCommand, and SERIAL
keeps its value (30_encoding.md R64; 60_exceptions.md R250, R252, R253). -/
def Obligations.StepAnswersDecodingErrors : Prop :=
  ∀ (n : Word16) (cmd : Bytes) (e : CommandError), decode cmd = .error e →
    (e = .unknownCommand ∧
      step (State.holding n cmd) = .next (State.answered n [0x09, 0x00, 0x00])) ∨
    (e = .malformedCommand ∧
      step (State.holding n cmd) = .next (State.answered n [0x08, 0x00, 0x00]))

/-- 30_encoding.md R70 and 60_exceptions.md R254: exactly the listed opcodes and the empty command
raise UnknownCommand, whatever the operand bytes. -/
def Obligations.IllegalOpcodesAreUnknown : Prop :=
  (∀ n : Word16, step (State.holding n []) = .next (State.answered n [0x09, 0x00, 0x00])) ∧
  ∀ (n : Word16) (op : Byte) (operands : Bytes),
    if op.toNat ≤ 0x0F ∨ (0x11 ≤ op.toNat ∧ op.toNat ≤ 0x1F) ∨
        (0x23 ≤ op.toNat ∧ op.toNat ≤ 0x2F) ∨ (0x33 ≤ op.toNat ∧ op.toNat ≤ 0x37) ∨
        (0x39 ≤ op.toNat ∧ op.toNat ≤ 0x3F) ∨ (0x43 ≤ op.toNat ∧ op.toNat ≤ 0x4F) ∨
        0x54 ≤ op.toNat then
      step (State.holding n (op :: operands)) = .next (State.answered n [0x09, 0x00, 0x00])
    else decode (op :: operands) ≠ .error .unknownCommand

/-- 70_reset_and_hazards.md R286: no command is accepted while one is pending or its response is
unread. That the step refuses a state that holds both is the model's choice (assumption log 4). -/
def Obligations.OverlappingCommandsHaveNoStep : Prop :=
  (∀ (s : State) (cmd : Bytes), s.command ≠ none ∨ s.response ≠ none → s.deliver cmd = none) ∧
  ∀ s : State, s.command ≠ none ∧ s.response ≠ none ↔ step s = .refused .overlappingCommand

/-- Every command delivered to a waiting block is answered with one legal response, after which the
block waits again (30_encoding.md R61; 60_exceptions.md R259; 70_reset_and_hazards.md R288). -/
def Obligations.EveryCommandIsAnswered : Prop :=
  ∀ (n : Word16) (cmd : Bytes), ∃ (bytes : Bytes) (n' : Word16),
    transact (State.idle n) cmd = some (bytes, State.idle n') ∧ legalResponse bytes = true

/-- 60_exceptions.md R253: a command that raises an error leaves the block as if it had never been
issued, and returns no result but a FrameError's reason. -/
def Obligations.FailedCommandLeavesNoTrace : Prop :=
  ∀ (s t : State) (cmd bytes : Bytes), transact s cmd = some (bytes, t) → bytes.getD 0 0 ≠ 0 →
    t = s ∧ ((∃ status : Byte, status ≠ 0x03 ∧ bytes = [status, 0x00, 0x00]) ∨
      ∃ reason : Byte, 1 ≤ reason.toNat ∧ reason.toNat ≤ 4 ∧ bytes = [0x03, 0x00, 0x01, reason])

/-- A sequence of commands runs strictly in order: the first is answered with the bytes that its own
step answers, and the rest run from the SERIAL that step left; so every sequence is answered
command by command, and what follows it runs from the SERIAL it left (20_memory.md R46;
70_reset_and_hazards.md R287). -/
def Obligations.CommandsComposeSequentially : Prop :=
  (∀ n : Word16, transactAll (State.idle n) [] = some ([], State.idle n)) ∧
  (∀ (n : Word16) (cmd : Bytes) (cmds : List Bytes), ∃ (bytes : Bytes) (n' : Word16),
    step (State.holding n cmd) = .next (State.answered n' bytes) ∧
    transactAll (State.idle n) (cmd :: cmds) =
      (transactAll (State.idle n') cmds).map fun rest => (bytes :: rest.1, rest.2)) ∧
  ∀ (n : Word16) (cmds : List Bytes), ∃ (responses : List Bytes) (n' : Word16),
    transactAll (State.idle n) cmds = some (responses, State.idle n') ∧
    responses.length = cmds.length ∧
    ∀ cmds' : List Bytes,
      transactAll (State.idle n) (cmds ++ cmds') =
        (transactAll (State.idle n') cmds').map fun rest => (responses ++ rest.1, rest.2)

/-- The invariant that every step keeps: one command at a time, and a pending response is a legal
one (30_encoding.md R61; 60_exceptions.md R250, R252; 70_reset_and_hazards.md R286). -/
def Obligations.StepKeepsSafe : Prop :=
  ∀ s t : State, s.safe = true → step s = .next t → t.safe = true

/-- The invariant holds after reset, and what the host does at the port keeps it. -/
def Obligations.HostKeepsSafe : Prop :=
  State.reset.safe = true ∧
  (∀ (s t : State) (cmd : Bytes), s.safe = true → s.deliver cmd = some t → t.safe = true) ∧
  (∀ (s t : State) (bytes : Bytes), s.safe = true → s.takeResponse = some (bytes, t) →
    t.safe = true)

/-! ### Encoding -/

/-- Every well-formed instruction is read back from its own bytes (30_encoding.md R62 to R68). -/
def Obligations.DecodeReadsEncoded : Prop :=
  ∀ i : Instr, i.wellFormed = true → decode (encode i) = .ok i

/-- A command has one spelling: whatever decodes is the encoding of a well-formed instruction
(30_encoding.md R62 to R69). -/
def Obligations.EncodeRestoresDecoded : Prop :=
  ∀ (cmd : Bytes) (i : Instr), decode cmd = .ok i → i.wellFormed = true ∧ encode i = cmd

/-- Commands written out from the spec's encoding decode to the instructions they stand for. -/
def Obligations.SpecWordsDecode : Prop :=
  decode [0x10, 0x00, 0x02, 0x01, 0x00] = .ok (.crc16 [0x01, 0x00]) ∧
  decode [0x22, 0xFE, 0x98, 0x31] = .ok (.encCourseStatus 0xFE98 0x31) ∧
  decode [0x30, 0x13, 0x01, 0xAA, 0x12, 0x34] = .ok (.buildFrame 0x13 [0xAA] 0x1234) ∧
  decode [0x42, 0xFF, 0xFE] = .ok (.serialLoad 0xFFFE) ∧
  decode [0x50, 0x01, 0x05, 0x00, 0x01, 0x86, 0x9F] = .ok (.fmtField (.udec 5 99999)) ∧
  decode [0x51, 0x01, 0x54, 0x02, 0x01, 0x61, 0x00] = .ok (.textRecord [0x54] [[0x61], []])

/-- 30_encoding.md R64, its first two cases: a command with a byte missing at its end or a byte left
over is malformed. -/
def Obligations.WrongLengthIsMalformed : Prop :=
  ∀ (cmd : Bytes) (i : Instr), decode cmd = .ok i →
    (∀ extra : Bytes, extra ≠ [] → decode (cmd ++ extra) = .error .malformedCommand) ∧
    (∀ k : Nat, 0 < k → k < cmd.length → decode (cmd.take k) = .error .malformedCommand)

/-- 30_encoding.md R69: each reserved operand value raises MalformedCommand, whatever the other
operand bytes; in a LocRec the flags are the byte at offset 27. -/
def Obligations.ReservedValuesAreMalformed : Prop :=
  ∀ n : Word16,
    (∀ (hi lo flags : Byte) (rest : Bytes), reservedBitsClear flags = false →
      step (State.holding n (0x22 :: hi :: lo :: flags :: rest)) =
        .next (State.answered n [0x08, 0x00, 0x00])) ∧
    (∀ operands : Bytes, reservedBitsClear (operands.getD 27 0) = false →
      step (State.holding n (0x32 :: operands)) =
        .next (State.answered n [0x08, 0x00, 0x00])) ∧
    (∀ (fmt : Byte) (rest : Bytes), 0x07 ≤ fmt.toNat →
      step (State.holding n (0x50 :: fmt :: rest)) =
        .next (State.answered n [0x08, 0x00, 0x00])) ∧
    (∀ (w : Byte) (rest : Bytes), 10 < w.toNat →
      step (State.holding n (0x50 :: 0x01 :: w :: rest)) =
        .next (State.answered n [0x08, 0x00, 0x00])) ∧
    (∀ (p : Byte) (rest : Bytes), 9 < p.toNat →
      step (State.holding n (0x50 :: 0x03 :: p :: rest)) =
        .next (State.answered n [0x08, 0x00, 0x00]))

/-- 30_encoding.md R67, LocRec: each field is read from its offset, big-endian. -/
def Obligations.LocRecFieldsAtTheirOffsets : Prop :=
  ∀ operands : Bytes, operands.length = 39 → reservedBitsClear (operands.getD 27 0) = true →
    ∃ r : LocRec, decode (0x32 :: operands) = .ok (.buildLocation r) ∧
      r.year.toNat = fromBe ((operands.drop 0).take 2) ∧
      r.month = operands.getD 2 0 ∧ r.day = operands.getD 3 0 ∧ r.hour = operands.getD 4 0 ∧
      r.minute = operands.getD 5 0 ∧ r.second = operands.getD 6 0 ∧ r.gps = operands.getD 7 0 ∧
      r.lat.toNat = fromBe ((operands.drop 8).take 8) ∧
      r.lon.toNat = fromBe ((operands.drop 16).take 8) ∧
      r.speed = operands.getD 24 0 ∧
      r.course.toNat = fromBe ((operands.drop 25).take 2) ∧
      r.flags = operands.getD 27 0 ∧
      r.mcc.toNat = fromBe ((operands.drop 28).take 2) ∧
      r.mnc = operands.getD 30 0 ∧
      r.lac.toNat = fromBe ((operands.drop 31).take 2) ∧
      r.cell.toNat = fromBe ((operands.drop 33).take 4) ∧
      r.serial.toNat = fromBe ((operands.drop 37).take 2)

/-- 30_encoding.md R66, its column "operand bytes". -/
def Obligations.OperandByteCounts : Prop :=
  (∀ data, (encode (.crc16 data)).length = 1 + (2 + data.length)) ∧
  (∀ id, (encode (.encBcd id)).length = 1 + (1 + id.length)) ∧
  (∀ deg, (encode (.encCoord deg)).length = 1 + 8) ∧
  (∀ course flags, (encode (.encCourseStatus course flags)).length = 1 + 3) ∧
  (∀ code payload serial,
    (encode (.buildFrame code payload serial)).length = 1 + (4 + payload.length)) ∧
  (∀ id serial, (encode (.buildLogin id serial)).length = 1 + (3 + id.length)) ∧
  (∀ r, (encode (.buildLocation r)).length = 1 + 39) ∧
  (∀ frame, (encode (.parseFrame frame)).length = 1 + (2 + frame.length)) ∧
  (encode .serialRead).length = 1 ∧ (encode .serialNext).length = 1 ∧
  (∀ value, (encode (.serialLoad value)).length = 1 + 2) ∧
  (∀ tag fields, (encode (.textRecord tag fields)).length =
    1 + (2 + tag.length + (fields.map fun f => 1 + f.length).sum)) ∧
  (∀ r, (encode (.buildStt r)).length = (encode (.buildAlv r)).length)

/-! ### Checksum unit -/

/-- 40_crc.md R101: CRC16 with its encoding, its only error and its corner cases. -/
def Obligations.Crc16Command : Prop :=
  (∀ (data : Bytes) (s : State),
    exec (.crc16 data) s =
      .next (State.answered s.serial ([0x00, 0x00, 0x02] ++ putU16 (crc16 data)))) ∧
  (∀ (n : Word16) (data : Bytes), data.length ≤ 65535 →
    step (State.holding n (0x10 :: be 2 data.length ++ data)) =
      .next (State.answered n ([0x00, 0x00, 0x02] ++ putU16 (crc16 data)))) ∧
  (∀ (n : Word16) (operands : Bytes),
    (∀ data : Bytes, data.length ≤ 65535 → operands ≠ be 2 data.length ++ data) →
    step (State.holding n (0x10 :: operands)) = .next (State.answered n [0x08, 0x00, 0x00])) ∧
  putU16 (crc16 []) = [0x00, 0x00] ∧
  (∀ data : Bytes, putU16 (crc16 (data ++ putU16 (crc16 data))) = [0x00, 0x00]) ∧
  putU16 (crc16 [0x31, 0x32, 0x33, 0x34, 0x35, 0x36, 0x37, 0x38, 0x39]) = [0x31, 0xC3]

/-- 40_crc.md R103: the table-driven form gives the same value, with `T[i] = crc_byte(0, i)`. -/
def Obligations.CrcTableDrivenForm : Prop :=
  ∀ (c : Word16) (b : Byte),
    crcByte c b = (c <<< 8) ^^^ crcByte 0 ((c >>> 8).setWidth 8 ^^^ b)

/-- 40_crc.md R104: the five laws of crc16. -/
def Obligations.CrcLaws : Prop :=
  crc16 [] = 0x0000 ∧
  (∀ (k : Nat) (s : Bytes), crc16 (List.replicate k 0x00 ++ s) = crc16 s) ∧
  (∀ s : Bytes, crc16 (s ++ be 2 (crc16 s).toNat) = 0x0000) ∧
  (∀ a b : Bytes, a.length = b.length →
    crc16 (List.zipWith (· ^^^ ·) a b) = crc16 a ^^^ crc16 b) ∧
  (crc16 [0x01, 0x00] = 0x3331 ∧ crc16 [0x00, 0x01] = 0x1021 ∧
    crc16 [0x01, 0x02] = 0x1373 ∧ crc16 [0x02, 0x01] = 0x7643)

/-! ### Encoders -/

/-- 41_field_encoders.md R124: ENC_BCD of a valid identity answers 8 bytes whose 16 nibbles spell
the padded identity. -/
def Obligations.EncBcdRoundTrip : Prop :=
  ∀ (id : Bytes) (s : State), id.length = 15 ∨ id.length = 16 → AllDigits id →
    ∃ out : Bytes,
      exec (.encBcd id) s = .next (State.answered s.serial ([0x00, 0x00, 0x08] ++ out)) ∧
      out.length = 8 ∧ unpackBcd out = (if id.length = 15 then 0x30 :: id else id)

/-- 41_field_encoders.md R121: any other identity raises InvalidIdentity, in both commands that take
one. -/
def Obligations.InvalidIdentityRefused : Prop :=
  ∀ (id : Bytes) (s : State), ¬ ((id.length = 15 ∨ id.length = 16) ∧ AllDigits id) →
    exec (.encBcd id) s = .next (State.answered s.serial [0x01, 0x00, 0x00]) ∧
    ∀ serial : Word16,
      exec (.buildLogin id serial) s = .next (State.answered s.serial [0x01, 0x00, 0x00])

/-- 00_scope.md R12, `rhe`: the nearest integer, and the even one of two equally near. -/
def Obligations.RheRoundsToNearestEven : Prop :=
  ∀ (num : Int) (den : Nat), 0 < den → IsNearestEven ((num : ℚ) / (den : ℚ)) (rhe num den)

/-- 00_scope.md R12 and 30_encoding.md R63: `finite` and `exact` of a binary64 pattern. The formula
of the value is IEEE 754's, which the rule names (assumption log 8). -/
def Obligations.Binary64ExactValue : Prop :=
  ∀ f : F64,
    (f64Finite f = true ↔ f.extractLsb' 52 11 ≠ 0x7FF) ∧
    (f64Finite f = true →
      exactQ f = (if f.getLsbD 63 then -1 else 1) *
        (if f.extractLsb' 52 11 = 0 then
          ((f.extractLsb' 0 52).toNat : ℚ) / 2 ^ 52 * (2 : ℚ) ^ (-1022 : ℤ)
        else
          (1 + ((f.extractLsb' 0 52).toNat : ℚ) / 2 ^ 52) *
            (2 : ℚ) ^ (((f.extractLsb' 52 11).toNat : ℤ) - 1023)))

/-- 41_field_encoders.md R126: the coordinate function for any limit; within 180 degrees its value
is at most 324000000. -/
def Obligations.CoordRoundsExactProduct : Prop :=
  ∀ (f : F64) (limit : Nat),
    (¬ WithinLimit f limit → coord f limit = .error .coordRange) ∧
    (WithinLimit f limit → ∃ v : Nat, coord f limit = .ok v ∧
      IsNearestEven (|exactQ f| * 1800000) v ∧ (limit ≤ 180 → v ≤ 324000000))

/-- ENC_COORD answers four bytes within 180 degrees, and CoordRange outside
(41_field_encoders.md R125, R127). -/
def Obligations.EncCoordCommand : Prop :=
  ∀ (deg : F64) (s : State),
    (WithinLimit deg 180 → ∃ v : Nat,
      exec (.encCoord deg) s = .next (State.answered s.serial ([0x00, 0x00, 0x04] ++ be 4 v)) ∧
      IsNearestEven (|exactQ deg| * 1800000) v ∧ v < 2 ^ 32) ∧
    (¬ WithinLimit deg 180 →
      exec (.encCoord deg) s = .next (State.answered s.serial [0x05, 0x00, 0x00]))

/-- 41_field_encoders.md R134: the packed field for any integer course, and its bounds. -/
def Obligations.CourseStatusPacksCourse : Prop :=
  ∀ (c : Int) (flags : Byte),
    (reservedBitsClear flags = false → courseStatus c flags = .error .malformedCommand) ∧
    (reservedBitsClear flags = true → ∃ w : Word16, courseStatus c flags = .ok w ∧
      w.toNat = 64 * (if c % 360 = 0 then 359 else (c % 360).toNat) + flags.toNat ∧
      1 ≤ w.toNat / 64 ∧ w.toNat / 64 ≤ 359 ∧ w.toNat ≤ 0x59F1)

/-- ENC_COURSE_STATUS packs the signed course and the three status bits, and refuses reserved bits
(41_field_encoders.md R130 to R134). -/
def Obligations.EncCourseStatusCommand : Prop :=
  ∀ (course : Word16) (flags : Byte) (s : State),
    (reservedBitsClear flags = true → ∃ w : Word16,
      exec (.encCourseStatus course flags) s =
        .next (State.answered s.serial ([0x00, 0x00, 0x02] ++ putU16 w)) ∧
      w.toNat / 64 = (if course.toInt % 360 = 0 then 359 else (course.toInt % 360).toNat) ∧
      w.getLsbD 0 = flags.getLsbD 0 ∧ w.getLsbD 1 = false ∧ w.getLsbD 2 = false ∧
      w.getLsbD 3 = false ∧ w.getLsbD 4 = flags.getLsbD 4 ∧ w.getLsbD 5 = flags.getLsbD 5) ∧
    (reservedBitsClear flags = false →
      exec (.encCourseStatus course flags) s =
        .next (State.answered s.serial [0x08, 0x00, 0x00]))

/-! ### Binary frames -/

/-- 42_binary_frame.md R157, R158: BUILD_FRAME writes the frame layout around any payload of at most
250 bytes, and refuses a longer one. -/
def Obligations.BuildFrameCommand : Prop :=
  ∀ (code : Byte) (payload : Bytes) (serial : Word16) (s : State),
    (payload.length ≤ 250 →
      exec (.buildFrame code payload serial) s =
        .next (State.answered s.serial
          ([0x00] ++ be 2 (10 + payload.length) ++ [0x78, 0x78] ++
            ([BitVec.ofNat 8 (payload.length + 5), code] ++ payload ++ be 2 serial.toNat) ++
            be 2 (crc16 ([BitVec.ofNat 8 (payload.length + 5), code] ++ payload ++
              be 2 serial.toNat)).toNat ++ [0x0D, 0x0A]))) ∧
    (250 < payload.length →
      exec (.buildFrame code payload serial) s =
        .next (State.answered s.serial [0x04, 0x00, 0x00]))

/-- 42_binary_frame.md R159: a built frame carries its own length and CRC, and PARSE_FRAME returns
what it was built from. -/
def Obligations.FrameRoundTrip : Prop :=
  ∀ (code : Byte) (payload : Bytes) (serial : Word16) (s : State), payload.length ≤ 250 →
    ∃ fr : Bytes,
      exec (.buildFrame code payload serial) s =
        .next (State.answered s.serial (okResponse fr)) ∧
      (fr.getD 2 0).toNat + 5 = fr.length ∧
      fromBe ((fr.drop (fr.length - 4)).take 2) =
        (crc16 ((fr.drop 2).take (fr.length - 6))).toNat ∧
      exec (.parseFrame fr) s =
        .next (State.answered s.serial (okResponse
          ([code] ++ be 1 payload.length ++ payload ++ be 2 serial.toNat ++
            (fr.drop (fr.length - 4)).take 2)))

/-- PARSE_FRAME accepts exactly the byte strings that `frame` builds
(42_binary_frame.md R156, R158). -/
def Obligations.ParseFrameAcceptsExactlyFrames : Prop :=
  ∀ (fr : Bytes) (s : State),
    (∃ result : Bytes,
      exec (.parseFrame fr) s = .next (State.answered s.serial (okResponse result))) ↔
    ∃ (code : Byte) (payload : Bytes) (serial : Word16),
      payload.length ≤ 250 ∧ frame code payload serial = .ok fr

/-- 42_binary_frame.md R156: the checks of PARSE_FRAME in their order, and its result. -/
def Obligations.ParseFrameChecksInOrder : Prop :=
  ∀ (fr : Bytes) (s : State),
    exec (.parseFrame fr) s = .next (State.answered s.serial
      (if fr.length < 10 then [0x03, 0x00, 0x01, 0x01]
      else if fr.getD 0 0 ≠ 0x78 ∨ fr.getD 1 0 ≠ 0x78 then [0x03, 0x00, 0x01, 0x02]
      else if (fr.getD 2 0).toNat < 5 ∨ fr.length ≠ (fr.getD 2 0).toNat + 5 then
        [0x03, 0x00, 0x01, 0x03]
      else if fr.getD (fr.length - 2) 0 ≠ 0x0D ∨ fr.getD (fr.length - 1) 0 ≠ 0x0A then
        [0x03, 0x00, 0x01, 0x04]
      else if crc16 ((fr.drop 2).take (fr.length - 6)) ≠
          fr.getD (fr.length - 4) 0 ++ fr.getD (fr.length - 3) 0 then [0x02, 0x00, 0x00]
      else [0x00] ++ be 2 (fr.length - 4) ++
        ([fr.getD 3 0, BitVec.ofNat 8 (fr.length - 10)] ++ (fr.drop 4).take (fr.length - 6))))

/-- BUILD_LOGIN of a valid identity answers the 18-byte login frame around its BCD form
(42_binary_frame.md R151, R157). -/
def Obligations.BuildLoginCommand : Prop :=
  ∀ (id : Bytes) (serial : Word16) (s : State),
    id.length = 15 ∨ id.length = 16 → AllDigits id →
    ∃ bcd : Bytes, bcd.length = 8 ∧
      unpackBcd bcd = (if id.length = 15 then 0x30 :: id else id) ∧
      exec (.buildLogin id serial) s =
        .next (State.answered s.serial
          ([0x00, 0x00, 0x12, 0x78, 0x78, 0x0D, 0x01] ++ bcd ++ be 2 serial.toNat ++
            be 2 (crc16 ([0x0D, 0x01] ++ bcd ++ be 2 serial.toNat)).toNat ++ [0x0D, 0x0A]))

/-- 42_binary_frame.md R152: the login frame of identity 352812192008961 with serial 1. -/
def Obligations.LoginScenarioFrame : Prop :=
  ∀ n : Word16,
    step (State.holding n [0x31, 0x0F, 0x33, 0x35, 0x32, 0x38, 0x31, 0x32, 0x31, 0x39, 0x32, 0x30,
      0x30, 0x38, 0x39, 0x36, 0x31, 0x00, 0x01]) =
    .next (State.answered n [0x00, 0x00, 0x12, 0x78, 0x78, 0x0D, 0x01, 0x03, 0x52, 0x81, 0x21, 0x92,
      0x00, 0x89, 0x61, 0x00, 0x01, 0x0D, 0xDB, 0x0D, 0x0A])

/-- BUILD_LOCATION answers the location frame when the reserved flag bits are clear and both
coordinates are in range; the cell identifier takes 3 or 4 bytes, the low-order ones
(42_binary_frame.md R153 to R155). -/
def Obligations.BuildLocationCommand : Prop :=
  ∀ (r : LocRec) (s : State), reservedBitsClear r.flags = true →
    WithinLimit r.lat 90 → WithinLimit r.lon 180 →
    ∃ (la lo : Nat) (cs : Word16) (cell body : Bytes),
      IsNearestEven (|exactQ r.lat| * 1800000) la ∧
      IsNearestEven (|exactQ r.lon| * 1800000) lo ∧
      cs.toNat = 64 * (if r.course.toInt % 360 = 0 then 359 else (r.course.toInt % 360).toNat) +
        r.flags.toNat ∧
      ((Config.params.cellIdWidth = 3 ∧ cell = (be 4 r.cell.toNat).drop 1) ∨
        (Config.params.cellIdWidth = 4 ∧ cell = be 4 r.cell.toNat)) ∧
      body = [BitVec.ofNat 8 (28 + cell.length), 0x12] ++
        ([BitVec.ofNat 8 (r.year.toNat % 100), r.month, r.day, r.hour, r.minute, r.second, r.gps] ++
          be 4 la ++ be 4 lo ++ [r.speed] ++ be 2 cs.toNat ++ be 2 r.mcc.toNat ++ [r.mnc] ++
          be 2 r.lac.toNat ++ cell) ++ be 2 r.serial.toNat ∧
      exec (.buildLocation r) s =
        .next (State.answered s.serial ([0x00] ++ be 2 (33 + cell.length) ++
          ([0x78, 0x78] ++ body ++ be 2 (crc16 body).toNat ++ [0x0D, 0x0A])))

/-- BUILD_LOCATION refuses reserved flag bits first, and then a coordinate out of range
(42_binary_frame.md R153; 60_exceptions.md R255). -/
def Obligations.BuildLocationErrors : Prop :=
  ∀ (r : LocRec) (s : State),
    (reservedBitsClear r.flags = false →
      exec (.buildLocation r) s = .next (State.answered s.serial [0x08, 0x00, 0x00])) ∧
    (reservedBitsClear r.flags = true → ¬ (WithinLimit r.lat 90 ∧ WithinLimit r.lon 180) →
      exec (.buildLocation r) s = .next (State.answered s.serial [0x05, 0x00, 0x00]))

/-- The signs of latitude and longitude do not reach the location frame
(41_field_encoders.md R126; 42_binary_frame.md R153). -/
def Obligations.CoordinateSignsDoNotReachFrame : Prop :=
  ∀ (r : LocRec) (s : State),
    exec (.buildLocation { r with lat := r.lat ^^^ (1 <<< 63) }) s = exec (.buildLocation r) s ∧
    exec (.buildLocation { r with lon := r.lon ^^^ (1 <<< 63) }) s = exec (.buildLocation r) s

/-! ### Serial counter -/

/-- 43_serial_counter.md R180: SERIAL_READ, its one-byte encoding, its error and its value after
reset. -/
def Obligations.SerialReadCommand : Prop :=
  (∀ s : State, exec .serialRead s =
    .next (State.answered s.serial ([0x00, 0x00, 0x02] ++ be 2 s.serial.toNat))) ∧
  (∀ n : Word16, step (State.holding n [0x40]) =
    .next (State.answered n ([0x00, 0x00, 0x02] ++ be 2 n.toNat))) ∧
  (∀ (n : Word16) (b : Byte) (rest : Bytes), step (State.holding n (0x40 :: b :: rest)) =
    .next (State.answered n [0x08, 0x00, 0x00])) ∧
  transact State.reset [0x40] = some ([0x00, 0x00, 0x02, 0x00, 0x01], State.reset)

/-- 43_serial_counter.md R181: SERIAL_NEXT returns the old value and increments; a stray byte leaves
SERIAL as it was; the wrap. -/
def Obligations.SerialNextCommand : Prop :=
  (∀ s : State, ∃ n' : Word16, n'.toNat = (s.serial.toNat + 1) % 65536 ∧
    exec .serialNext s =
      .next (State.answered n' ([0x00, 0x00, 0x02] ++ be 2 s.serial.toNat))) ∧
  (∀ n : Word16, ∃ n' : Word16, n'.toNat = (n.toNat + 1) % 65536 ∧
    step (State.holding n [0x41]) =
      .next (State.answered n' ([0x00, 0x00, 0x02] ++ be 2 n.toNat))) ∧
  (∀ (n : Word16) (b : Byte) (rest : Bytes), step (State.holding n (0x41 :: b :: rest)) =
    .next (State.answered n [0x08, 0x00, 0x00])) ∧
  transactAll (State.idle 65535) [[0x41], [0x41]] =
    some ([[0x00, 0x00, 0x02, 0xFF, 0xFF], [0x00, 0x00, 0x02, 0x00, 0x00]], State.idle 1) ∧
  transact State.reset [0x41] = some ([0x00, 0x00, 0x02, 0x00, 0x01], State.idle 2)

/-- 43_serial_counter.md R182: SERIAL_LOAD sets the counter to any value and answers an empty
result; any other operand length is malformed and leaves SERIAL as it was. -/
def Obligations.SerialLoadCommand : Prop :=
  (∀ (value : Word16) (s : State),
    exec (.serialLoad value) s = .next (State.answered value [0x00, 0x00, 0x00])) ∧
  (∀ (n : Word16) (hi lo : Byte), step (State.holding n [0x42, hi, lo]) =
    .next (State.answered (hi ++ lo) [0x00, 0x00, 0x00])) ∧
  (∀ (n : Word16) (operands : Bytes), operands.length ≠ 2 →
    step (State.holding n (0x42 :: operands)) = .next (State.answered n [0x08, 0x00, 0x00]))

/-- 43_serial_counter.md R183: any number of increments from any value counts modulo 2 to the 16 and
skips nothing. -/
def Obligations.SerialIncrementLaw : Prop :=
  ∀ (n : Word16) (k : Nat), ∃ (responses : List Bytes) (n' : Word16),
    transactAll (State.idle n) (List.replicate k [0x41]) = some (responses, State.idle n') ∧
    n'.toNat = (n.toNat + k) % 65536 ∧ responses.length = k ∧
    ∀ j : Nat, j < k →
      responses.getD j [] = [0x00, 0x00, 0x02] ++ be 2 ((n.toNat + j) % 65536)

/-- Only the commands SERIAL_NEXT and SERIAL_LOAD write SERIAL (10_state.md R20, R21;
20_memory.md R45). -/
def Obligations.OnlyTwoCommandsWriteSerial : Prop :=
  ∀ s t : State, step s = .next t → t.serial ≠ s.serial →
    s.command = some [0x41] ∨ ∃ hi lo : Byte, s.command = some [0x42, hi, lo]

/-- The response of every command but SERIAL_READ and SERIAL_NEXT depends on its own bytes alone,
not on the state (10_state.md R20, R21; 20_memory.md R45, R50; assumption log 13). -/
def Obligations.ResponsesIgnoreState : Prop :=
  ∀ (n n' : Word16) (cmd : Bytes), cmd ≠ [0x40] → cmd ≠ [0x41] →
    ∃ (bytes : Bytes) (m m' : Word16),
      step (State.holding n cmd) = .next (State.answered m bytes) ∧
      step (State.holding n' cmd) = .next (State.answered m' bytes)

/-! ### Text fields -/

/-- 00_scope.md R13, `dec`: digits only, the right value, and no leading zero. -/
def Obligations.DecSpellsNumber : Prop :=
  ∀ v : Nat, AllDigits (dec v) ∧ decimalValue (dec v) = v ∧ (v = 0 → dec v = [0x30]) ∧
    (0 < v → dec v ≠ [] ∧ (dec v).head? ≠ some 0x30)

/-- 44_text_frame.md R201: STR copies legal text verbatim, and refuses any other byte. -/
def Obligations.StrField : Prop :=
  ∀ (text : Bytes) (s : State), text.length ≤ 255 →
    (LegalText text →
      exec (.fmtField (.str text)) s = .next (State.answered s.serial (okResponse text))) ∧
    (¬ LegalText text →
      exec (.fmtField (.str text)) s = .next (State.answered s.serial [0x07, 0x00, 0x00]))

/-- 44_text_frame.md R202: UDEC of width 0 is the plain spelling; of width 1 to 10 exactly that many
digits, or FieldRange. -/
def Obligations.UdecField : Prop :=
  ∀ (w : Byte) (v : Word32) (s : State), w.toNat ≤ 10 →
    (w.toNat = 0 → exec (.fmtField (.udec w v)) s =
      .next (State.answered s.serial (okResponse (dec v.toNat)))) ∧
    (0 < w.toNat → v.toNat < 10 ^ w.toNat → ∃ text : Bytes,
      exec (.fmtField (.udec w v)) s = .next (State.answered s.serial (okResponse text)) ∧
      text.length = w.toNat ∧ AllDigits text ∧ decimalValue text = v.toNat) ∧
    (0 < w.toNat → 10 ^ w.toNat ≤ v.toNat → exec (.fmtField (.udec w v)) s =
      .next (State.answered s.serial [0x06, 0x00, 0x00]))

/-- 44_text_frame.md R203: SDEC spells the sign only of a negative value, and never fails. -/
def Obligations.SdecField : Prop :=
  ∀ (v : Word32) (s : State),
    exec (.fmtField (.sdec v)) s = .next (State.answered s.serial (okResponse
      (if v.toInt < 0 then [0x2D] ++ dec (-v.toInt).toNat else dec v.toInt.toNat)))

/-- 44_text_frame.md R204: SFIX rounds the exact value once, ties to even, and spells it with
exactly `p` fraction digits; a value that is not finite or not below 10 to the 9 is refused. -/
def Obligations.SfixField : Prop :=
  ∀ (p : Byte) (f : F64) (s : State), p.toNat ≤ 9 →
    (SfixInRange f → ∃ (q : Int) (frac : Bytes),
      IsNearestEven (exactQ f * 10 ^ p.toNat) q ∧
      frac.length = p.toNat ∧ AllDigits frac ∧
      decimalValue frac = q.natAbs % 10 ^ p.toNat ∧
      exec (.fmtField (.sfix p f)) s = .next (State.answered s.serial (okResponse
        ((if q < 0 then [0x2D] else []) ++ dec (q.natAbs / 10 ^ p.toNat) ++
          (if p.toNat = 0 then [] else [0x2E] ++ frac))))) ∧
    (¬ SfixInRange f → exec (.fmtField (.sfix p f)) s =
      .next (State.answered s.serial [0x06, 0x00, 0x00]))

/-- A `-` is never followed by an all-zero number (44_text_frame.md R204, its first remark). -/
def Obligations.SfixHasNoNegativeZero : Prop :=
  ∀ (p : Nat) (f : F64) (text : Bytes), fmtSfix p f = .ok text → text.head? = some 0x2D →
    ∃ b ∈ text, 0x31 ≤ b.toNat ∧ b.toNat ≤ 0x39

/-- 44_text_frame.md R205, R206: DATE8 and TIME6 spell 8 and 6 digits, with no check but the width
of each part. -/
def Obligations.DateAndTimeFields : Prop :=
  (∀ (y : Word16) (m d : Byte) (s : State),
    (y.toNat ≤ 9999 ∧ m.toNat ≤ 99 ∧ d.toNat ≤ 99 → ∃ text : Bytes,
      exec (.fmtField (.date8 y m d)) s = .next (State.answered s.serial (okResponse text)) ∧
      text.length = 8 ∧ AllDigits text ∧
      decimalValue text = y.toNat * 10000 + m.toNat * 100 + d.toNat) ∧
    (¬ (y.toNat ≤ 9999 ∧ m.toNat ≤ 99 ∧ d.toNat ≤ 99) →
      exec (.fmtField (.date8 y m d)) s =
        .next (State.answered s.serial [0x06, 0x00, 0x00]))) ∧
  (∀ (h mi sec : Byte) (s : State),
    (h.toNat ≤ 99 ∧ mi.toNat ≤ 99 ∧ sec.toNat ≤ 99 → ∃ text : Bytes,
      exec (.fmtField (.time6 h mi sec)) s = .next (State.answered s.serial (okResponse text)) ∧
      text.length = 6 ∧ AllDigits text ∧
      decimalValue text = h.toNat * 10000 + mi.toNat * 100 + sec.toNat) ∧
    (¬ (h.toNat ≤ 99 ∧ mi.toNat ≤ 99 ∧ sec.toNat ≤ 99) →
      exec (.fmtField (.time6 h mi sec)) s =
        .next (State.answered s.serial [0x06, 0x00, 0x00])))

/-- 44_text_frame.md R207: FLAG is 0 or 1. -/
def Obligations.FlagField : Prop :=
  ∀ (b : Byte) (s : State), exec (.fmtField (.flag b)) s = .next (State.answered s.serial
    (if b.toNat = 0 then [0x00, 0x00, 0x01, 0x30]
    else if b.toNat = 1 then [0x00, 0x00, 0x01, 0x31] else [0x06, 0x00, 0x00]))

/-! ### Text records -/

/-- 44_text_frame.md R221, through TEXT_RECORD: the layout of a record, and its errors in their
order. -/
def Obligations.TextRecordCommand : Prop :=
  ∀ (tag : Bytes) (fields : List Bytes) (s : State),
    (tag = [] → exec (.textRecord tag fields) s =
      .next (State.answered s.serial [0x08, 0x00, 0x00])) ∧
    (tag ≠ [] → ¬ (LegalText tag ∧ ∀ f ∈ fields, LegalText f) →
      exec (.textRecord tag fields) s = .next (State.answered s.serial [0x07, 0x00, 0x00])) ∧
    (tag ≠ [] → LegalText tag → (∀ f ∈ fields, LegalText f) →
      65535 < (tag ++ fields.flatMap (fun f => 0x3B :: f) ++ [0x0D]).length →
      exec (.textRecord tag fields) s = .next (State.answered s.serial [0x04, 0x00, 0x00])) ∧
    (tag ≠ [] → LegalText tag → (∀ f ∈ fields, LegalText f) →
      (tag ++ fields.flatMap (fun f => 0x3B :: f) ++ [0x0D]).length ≤ 65535 →
      exec (.textRecord tag fields) s = .next (State.answered s.serial
        (okResponse (tag ++ fields.flatMap (fun f => 0x3B :: f) ++ [0x0D]))))

/-- A record that is built ends in the terminator and splits at the delimiter into its tag and its
fields, so no field can be mistaken for another (44_text_frame.md R200, R221). -/
def Obligations.RecordSplitsIntoItsFields : Prop :=
  ∀ (tag : Bytes) (fields : List Bytes) (bytes : Bytes), record tag fields = .ok bytes →
    bytes.getLast? = some 0x0D ∧ bytes.dropLast.splitOn 0x3B = tag :: fields

/-- BUILD_STT answers the status record, its sixteen fields in order, each with its format, when
every operand is in its field's range (44_text_frame.md R221 to R223). -/
def Obligations.BuildSttCommand : Prop :=
  ∀ (r : SttRec) (s : State), r.wellFormed = true → (∀ k : SttField, SttInRange r k) →
    ∃ texts : List Bytes,
      List.Forall₂ (fun k g => formatField (sttFormat Config.params r k) = .ok g)
        SttField.all texts ∧
      exec (.buildStt r) s = .next (State.answered s.serial (okResponse
        (Config.params.tagStt ++ texts.flatMap (fun g => 0x3B :: g) ++ [0x0D])))

/-- BUILD_ALV answers the alive record with the listed fields in order, when the operands of those
fields are in range (44_text_frame.md R221, R222, R224). -/
def Obligations.BuildAlvCommand : Prop :=
  ∀ (r : SttRec) (s : State), r.wellFormed = true →
    (∀ k ∈ Config.params.alvFields, SttInRange r k) →
    ∃ texts : List Bytes,
      List.Forall₂ (fun k g => formatField (sttFormat Config.params r k) = .ok g)
        Config.params.alvFields texts ∧
      exec (.buildAlv r) s = .next (State.answered s.serial (okResponse
        (Config.params.tagAlv ++ texts.flatMap (fun g => 0x3B :: g) ++ [0x0D])))

/-- BUILD_STT reports the first field, in field order, whose operand is out of range
(44_text_frame.md R223; 60_exceptions.md R251, R255). -/
def Obligations.SttReportsFirstBadField : Prop :=
  ∀ (r : SttRec) (s : State) (before after : List SttField) (k : SttField),
    SttField.all = before ++ k :: after → (∀ j ∈ before, SttInRange r j) → ¬ SttInRange r k →
    exec (.buildStt r) s = .next (State.answered s.serial [fieldErrorStatus k, 0x00, 0x00])

/-- BUILD_ALV answers the alive record of the instance's parameters. Under any parameters that
record depends on the listed fields alone, the others being neither formatted nor checked, and its
error is that of the first listed field whose operand is out of range (44_text_frame.md R224;
60_exceptions.md R251, R255). -/
def Obligations.AlvChecksListedFieldsOnly : Prop :=
  (∀ (r : SttRec) (s : State),
    exec (.buildAlv r) s = .next (finishPure s (alvRecord Config.params r))) ∧
  (∀ (P : Params) (r r' : SttRec),
    (∀ k ∈ P.alvFields, sttFormat P r k = sttFormat P r' k) → alvRecord P r = alvRecord P r') ∧
  ∀ (P : Params) (r : SttRec) (before after : List SttField) (k : SttField),
    P.alvFields = before ++ k :: after → (∀ j ∈ before, SttInRange r j) → ¬ SttInRange r k →
    ∃ e : CommandError, alvRecord P r = .error e ∧
      errorResponse e = [fieldErrorStatus k, 0x00, 0x00]

/-! ### Parameters -/

/-- The instance's parameters are legal, and the legal parameter values are exactly those the open
choices can make (00_scope.md R8; 44_text_frame.md R225, R226; assumption log 1). -/
def Obligations.ParamsAreExactlyTheLegalOnes : Prop :=
  legalParams Config.params = true ∧
  ∀ P : Params, legalParams P = true ↔
    ∃ (wideCell : Bool) (pLatLon pSpeed pCourse pBatt : Fin 10)
      (sttLength : Fin 253) (sttByte : Nat → Fin 94)
      (alvLength : Fin 253) (alvByte : Nat → Fin 94) (alvChoice : Fin 65534),
      P = Params.ofChoices wideCell pLatLon pSpeed pCourse pBatt sttLength sttByte alvLength
        alvByte alvChoice
end

