-- ==== Sys2Proof/Laws/Decode.lean ====
section
/-! SUPPORT. What the readers and writers of operands do: the big-endian bytes of a number, and each
`take` function on the bytes its writer makes. -/

namespace Sys2Proof

@[simp] theorem be_length (n v : Nat) : (be n v).length = n := by
  induction n with
  | zero => rfl
  | succ n ih => simp [be, ih]

theorem fromBe_foldl (s : Bytes) (v : Nat) :
    s.foldl (fun v b => v * 256 + b.toNat) v = v * 256 ^ s.length + fromBe s := by
  induction s generalizing v with
  | nil => simp [fromBe]
  | cons b s ih =>
    simp only [List.foldl_cons, fromBe, List.length_cons, zero_mul, zero_add]
    rw [ih, ih b.toNat]
    ring

theorem fromBe_cons (b : Byte) (s : Bytes) :
    fromBe (b :: s) = b.toNat * 256 ^ s.length + fromBe s := by
  have h := fromBe_foldl s b.toNat
  simpa [fromBe] using h

/-- Reading back the bytes of a number gives the number modulo the width. -/
theorem fromBe_be (n v : Nat) : fromBe (be n v) = v % 256 ^ n := by
  induction n with
  | zero => simp [be, fromBe, Nat.mod_one]
  | succ n ih =>
    rw [be, fromBe_cons, ih, be_length, BitVec.toNat_ofNat, pow_succ 256 n, Nat.mod_mul, Nat.add_comm,
      Nat.mul_comm (256 ^ n)]

theorem fromBe_lt (s : Bytes) : fromBe s < 256 ^ s.length := by
  induction s with
  | nil => simp [fromBe]
  | cons b s ih =>
    rw [fromBe_cons, List.length_cons, pow_succ]
    have hb := b.isLt
    nlinarith [Nat.one_le_pow s.length 256 (by norm_num)]

/-- The bytes of the number a byte string reads as are the string itself. -/
theorem be_fromBe (s : Bytes) : be s.length (fromBe s) = s := by
  induction s with
  | nil => rfl
  | cons b s ih =>
    have h := fromBe_lt s
    have hm : ∀ k n : Nat, be n (k * 256 ^ n + fromBe s) = be n (fromBe s) := by
      intro k n
      induction n generalizing k with
      | zero => rfl
      | succ n ihn =>
        rw [be, be]
        congr 1
        · apply BitVec.eq_of_toNat_eq
          simp only [BitVec.toNat_ofNat]
          rw [show k * 256 ^ (n + 1) + fromBe s = fromBe s + 256 ^ n * (256 * k) by ring,
            Nat.add_mul_div_left _ _ (by positivity), Nat.add_mul_mod_self_left]
        · have := ihn (k * 256)
          rwa [show k * 256 * 256 ^ n = k * 256 ^ (n + 1) by ring] at this
    rw [List.length_cons, be, fromBe_cons, hm, ih]
    congr 1
    apply BitVec.eq_of_toNat_eq
    rw [BitVec.toNat_ofNat, Nat.add_comm, Nat.add_mul_div_right _ _ (by positivity),
      Nat.div_eq_of_lt h, Nat.zero_add, Nat.mod_eq_of_lt b.isLt]

/-- `takeBytes` takes exactly the bytes asked for. -/
theorem takeBytes_append (s rest : Bytes) : takeBytes s.length (s ++ rest) = some (s, rest) := by
  induction s with
  | nil => rfl
  | cons b s ih => simp [takeBytes, ih]

/-- Everything `takeBytes` can do: it answers the bytes it was asked for and the rest. -/
theorem takeBytes_some {n : Nat} {bs s rest : Bytes} (h : takeBytes n bs = some (s, rest)) :
    s.length = n ∧ bs = s ++ rest := by
  induction n generalizing bs s rest with
  | zero =>
    simp only [takeBytes, Option.some.injEq, Prod.mk.injEq] at h
    obtain ⟨rfl, rfl⟩ := h
    exact ⟨rfl, rfl⟩
  | succ n ih =>
    cases bs with
    | nil => simp [takeBytes] at h
    | cons b bs =>
      simp only [takeBytes] at h
      split at h
      · rename_i s' rest' hs
        simp only [Option.some.injEq, Prod.mk.injEq] at h
        obtain ⟨rfl, rfl⟩ := h
        obtain ⟨h1, h2⟩ := ih hs
        exact ⟨by simp [h1], by simp [h2]⟩
      · cases h

/-- `takeBytes` fails exactly where too few bytes remain. -/
theorem takeBytes_none_iff {n : Nat} {bs : Bytes} : takeBytes n bs = none ↔ bs.length < n := by
  induction n generalizing bs with
  | zero => simp [takeBytes]
  | succ n ih =>
    cases bs with
    | nil => simp [takeBytes]
    | cons b bs =>
      have hi := ih (bs := bs)
      simp only [takeBytes, List.length_cons, Nat.add_lt_add_iff_right]
      split
      · rename_i h
        simp [← hi, h]
      · rename_i h
        simp [← hi, h]

@[simp] theorem takeU8_cons (b : Byte) (rest : Bytes) : takeU8 (b :: rest) = some (b, rest) := rfl

theorem takeWord_put (n : Nat) (v : BitVec (8 * n)) (rest : Bytes) :
    takeWord n (putWord n v ++ rest) = some (v, rest) := by
  have h : takeBytes n (putWord n v ++ rest) = some (putWord n v, rest) := by
    simpa [putWord] using takeBytes_append (be n v.toNat) rest
  have hv : fromBe (putWord n v) = v.toNat := by
    rw [putWord, fromBe_be]
    apply Nat.mod_eq_of_lt
    have := v.isLt
    rwa [pow_mul] at this
  simp [takeWord, h, hv]

/-- Everything `takeWord` can do: it answers the word whose bytes it took, and the rest. -/
theorem takeWord_some {n : Nat} {bs rest : Bytes} {v : BitVec (8 * n)}
    (h : takeWord n bs = some (v, rest)) : bs = putWord n v ++ rest := by
  simp only [takeWord, Option.bind_eq_bind, Option.bind_eq_some_iff] at h
  obtain ⟨⟨s, rest'⟩, hs, h⟩ := h
  simp only [Option.pure_def, Option.some.injEq, Prod.mk.injEq] at h
  obtain ⟨rfl, rfl⟩ := h
  obtain ⟨hl, rfl⟩ := takeBytes_some hs
  have hlt := fromBe_lt s
  rw [hl] at hlt
  rw [putWord, BitVec.toNat_ofNat, Nat.mod_eq_of_lt (by rwa [pow_mul]), ← hl, be_fromBe]

@[simp] theorem takeU16_put (v : Word16) (rest : Bytes) :
    takeU16 (putU16 v ++ rest) = some (v, rest) := takeWord_put 2 v rest

@[simp] theorem takeU32_put (v : Word32) (rest : Bytes) :
    takeU32 (putU32 v ++ rest) = some (v, rest) := takeWord_put 4 v rest

@[simp] theorem takeF64_put (v : F64) (rest : Bytes) :
    takeF64 (putF64 v ++ rest) = some (v, rest) := takeWord_put 8 v rest

theorem takeStr8_put {s : Bytes} (h : fitsStr8 s) (rest : Bytes) :
    takeStr8 (putStr8 s ++ rest) = some (s, rest) := by
  have hl : s.length ≤ 255 := by simpa [fitsStr8] using h
  have hn : (BitVec.ofNat 8 s.length).toNat = s.length := by
    rw [BitVec.toNat_ofNat]
    exact Nat.mod_eq_of_lt (by omega)
  simp [takeStr8, putStr8, be, hn, takeBytes_append]

theorem takeStr16_put {s : Bytes} (h : fitsStr16 s) (rest : Bytes) :
    takeStr16 (putStr16 s ++ rest) = some (s, rest) := by
  have hl : s.length ≤ 65535 := by simpa [fitsStr16] using h
  have hn : (BitVec.ofNat 16 s.length).toNat = s.length := by
    rw [BitVec.toNat_ofNat]
    exact Nat.mod_eq_of_lt (by omega)
  have hp : putStr16 s = putU16 (BitVec.ofNat 16 s.length) ++ s := by rw [putU16, hn, putStr16]
  simp only [takeStr16, hp, List.append_assoc, takeU16_put, Option.bind_eq_bind,
    Option.bind_some, hn]
  exact takeBytes_append s rest

/-! ### Operand lists -/

/-- One reading followed by more: the reading's value goes on. -/
theorem bind_taken {α β : Type} {x : Option (α × Bytes)} {a : α} {rest : Bytes}
    (h : x = some (a, rest)) (k : α × Bytes → Option β) : (x >>= k) = k (a, rest) := by
  rw [h]
  rfl

/-- Where a reading followed by more succeeds, the reading did. -/
theorem taken_of_bind {α β : Type} {x : Option (α × Bytes)} {k : α × Bytes → Option β} {y : β}
    (h : (x >>= k) = some y) : ∃ a rest, x = some (a, rest) ∧ k (a, rest) = some y := by
  obtain _ | ⟨a, rest⟩ := x
  · cases h
  · exact ⟨a, rest, rfl, h⟩

theorem takeStr8s_put {fs : List Bytes} (h : ∀ f ∈ fs, fitsStr8 f = true) (rest : Bytes) :
    takeStr8s fs.length (fs.flatMap putStr8 ++ rest) = some (fs, rest) := by
  induction fs with
  | nil => rfl
  | cons f fs ih =>
    rw [List.flatMap_cons, List.append_assoc]
    refine (bind_taken (takeStr8_put (h f List.mem_cons_self) _) _).trans ?_
    exact bind_taken (ih fun g hg => h g (List.mem_cons_of_mem _ hg)) _

theorem takeLocRec_put (r : LocRec) (rest : Bytes) :
    takeLocRec (putLocRec r ++ rest) = some (r, rest) := by
  simp only [putLocRec, List.append_assoc, List.cons_append, List.nil_append]
  refine (bind_taken (takeU16_put _ _) _).trans ?_
  iterate 6 refine (bind_taken (takeU8_cons _ _) _).trans ?_
  iterate 2 refine (bind_taken (takeF64_put _ _) _).trans ?_
  refine (bind_taken (takeU8_cons _ _) _).trans ?_
  refine (bind_taken (takeU16_put _ _) _).trans ?_
  refine (bind_taken (takeU8_cons _ _) _).trans ?_
  refine (bind_taken (takeU16_put _ _) _).trans ?_
  refine (bind_taken (takeU8_cons _ _) _).trans ?_
  refine (bind_taken (takeU16_put _ _) _).trans ?_
  refine (bind_taken (takeU32_put _ _) _).trans ?_
  exact bind_taken (takeU16_put _ _) _

theorem takeSttRec_put {r : SttRec} (h : r.wellFormed = true) (rest : Bytes) :
    takeSttRec (putSttRec r ++ rest) = some (r, rest) := by
  simp only [SttRec.wellFormed, Bool.and_eq_true] at h
  obtain ⟨⟨hd, hf⟩, hi⟩ := h
  simp only [putSttRec, List.append_assoc, List.cons_append, List.nil_append]
  refine (bind_taken (takeStr8_put hd _) _).trans ?_
  refine (bind_taken (takeStr8_put hf _) _).trans ?_
  refine (bind_taken (takeU16_put _ _) _).trans ?_
  iterate 5 refine (bind_taken (takeU8_cons _ _) _).trans ?_
  refine (bind_taken (takeU32_put _ _) _).trans ?_
  iterate 4 refine (bind_taken (takeF64_put _ _) _).trans ?_
  iterate 3 refine (bind_taken (takeU8_cons _ _) _).trans ?_
  refine (bind_taken (takeF64_put _ _) _).trans ?_
  refine (bind_taken (takeU16_put _ _) _).trans ?_
  refine (bind_taken (takeStr8_put hi _) _).trans ?_
  exact bind_taken (takeU16_put _ _) _

theorem takeU8_some {bs rest : Bytes} {v : Byte} (h : takeU8 bs = some (v, rest)) :
    bs = v :: rest := by
  cases bs with
  | nil => cases h
  | cons b bs =>
    simp only [takeU8_cons, Option.some.injEq, Prod.mk.injEq] at h
    rw [h.1, h.2]

theorem takeU16_some {bs rest : Bytes} {v : Word16} (h : takeU16 bs = some (v, rest)) :
    bs = putU16 v ++ rest := takeWord_some h

theorem takeU32_some {bs rest : Bytes} {v : Word32} (h : takeU32 bs = some (v, rest)) :
    bs = putU32 v ++ rest := takeWord_some h

theorem takeF64_some {bs rest : Bytes} {v : F64} (h : takeF64 bs = some (v, rest)) :
    bs = putF64 v ++ rest := takeWord_some h

theorem takeStr8_some {bs s rest : Bytes} (h : takeStr8 bs = some (s, rest)) :
    fitsStr8 s = true ∧ bs = putStr8 s ++ rest := by
  simp only [takeStr8, Option.bind_eq_bind, Option.bind_eq_some_iff, Prod.exists] at h
  obtain ⟨n, bs', hn, h⟩ := h
  obtain ⟨hl, rfl⟩ := takeBytes_some h
  obtain rfl := takeU8_some hn
  have hlt := n.isLt
  refine ⟨by simp only [fitsStr8, decide_eq_true_eq]; omega, ?_⟩
  rw [putStr8, hl]
  simp [be]

theorem takeStr16_some {bs s rest : Bytes} (h : takeStr16 bs = some (s, rest)) :
    fitsStr16 s = true ∧ bs = putStr16 s ++ rest := by
  simp only [takeStr16, Option.bind_eq_bind, Option.bind_eq_some_iff, Prod.exists] at h
  obtain ⟨n, bs', hn, h⟩ := h
  obtain ⟨hl, rfl⟩ := takeBytes_some h
  obtain rfl := takeU16_some hn
  have hlt := n.isLt
  refine ⟨by simp only [fitsStr16, decide_eq_true_eq]; omega, ?_⟩
  rw [putStr16, hl, putU16, List.append_assoc]

theorem takeStr8s_some {n : Nat} {bs rest : Bytes} {fs : List Bytes}
    (h : takeStr8s n bs = some (fs, rest)) :
    fs.length = n ∧ (∀ f ∈ fs, fitsStr8 f = true) ∧ bs = fs.flatMap putStr8 ++ rest := by
  induction n generalizing bs rest fs with
  | zero =>
    simp only [takeStr8s, Option.some.injEq, Prod.mk.injEq] at h
    obtain ⟨rfl, rfl⟩ := h
    simp
  | succ n ih =>
    simp only [takeStr8s, Option.bind_eq_bind, Option.bind_eq_some_iff, Prod.exists,
      Option.pure_def, Option.some.injEq, Prod.mk.injEq] at h
    obtain ⟨s, bs', hs, ss, rest', hss, rfl, rfl⟩ := h
    obtain ⟨hf, rfl⟩ := takeStr8_some hs
    obtain ⟨hl, hall, rfl⟩ := ih hss
    refine ⟨by simp [hl], ?_, by simp⟩
    intro f hm
    rcases List.mem_cons.1 hm with rfl | hm
    · exact hf
    · exact hall f hm

theorem takeLocRec_some {bs rest : Bytes} {r : LocRec} (h : takeLocRec bs = some (r, rest)) :
    bs = putLocRec r ++ rest := by
  obtain ⟨_, _, h1, h⟩ := taken_of_bind h
  obtain ⟨_, _, h2, h⟩ := taken_of_bind h
  obtain ⟨_, _, h3, h⟩ := taken_of_bind h
  obtain ⟨_, _, h4, h⟩ := taken_of_bind h
  obtain ⟨_, _, h5, h⟩ := taken_of_bind h
  obtain ⟨_, _, h6, h⟩ := taken_of_bind h
  obtain ⟨_, _, h7, h⟩ := taken_of_bind h
  obtain ⟨_, _, h8, h⟩ := taken_of_bind h
  obtain ⟨_, _, h9, h⟩ := taken_of_bind h
  obtain ⟨_, _, h10, h⟩ := taken_of_bind h
  obtain ⟨_, _, h11, h⟩ := taken_of_bind h
  obtain ⟨_, _, h12, h⟩ := taken_of_bind h
  obtain ⟨_, _, h13, h⟩ := taken_of_bind h
  obtain ⟨_, _, h14, h⟩ := taken_of_bind h
  obtain ⟨_, _, h15, h⟩ := taken_of_bind h
  obtain ⟨_, _, h16, h⟩ := taken_of_bind h
  obtain ⟨_, _, h17, h⟩ := taken_of_bind h
  obtain ⟨rfl, rfl⟩ := Prod.mk.inj (Option.some.inj h)
  rw [takeU16_some h1, takeU8_some h2, takeU8_some h3, takeU8_some h4, takeU8_some h5,
    takeU8_some h6, takeU8_some h7, takeF64_some h8, takeF64_some h9, takeU8_some h10,
    takeU16_some h11, takeU8_some h12, takeU16_some h13, takeU8_some h14, takeU16_some h15,
    takeU32_some h16, takeU16_some h17]
  simp only [putLocRec, List.append_assoc, List.cons_append, List.nil_append]

theorem takeSttRec_some {bs rest : Bytes} {r : SttRec} (h : takeSttRec bs = some (r, rest)) :
    r.wellFormed = true ∧ bs = putSttRec r ++ rest := by
  obtain ⟨_, _, h1, h⟩ := taken_of_bind h
  obtain ⟨_, _, h2, h⟩ := taken_of_bind h
  obtain ⟨_, _, h3, h⟩ := taken_of_bind h
  obtain ⟨_, _, h4, h⟩ := taken_of_bind h
  obtain ⟨_, _, h5, h⟩ := taken_of_bind h
  obtain ⟨_, _, h6, h⟩ := taken_of_bind h
  obtain ⟨_, _, h7, h⟩ := taken_of_bind h
  obtain ⟨_, _, h8, h⟩ := taken_of_bind h
  obtain ⟨_, _, h9, h⟩ := taken_of_bind h
  obtain ⟨_, _, h10, h⟩ := taken_of_bind h
  obtain ⟨_, _, h11, h⟩ := taken_of_bind h
  obtain ⟨_, _, h12, h⟩ := taken_of_bind h
  obtain ⟨_, _, h13, h⟩ := taken_of_bind h
  obtain ⟨_, _, h14, h⟩ := taken_of_bind h
  obtain ⟨_, _, h15, h⟩ := taken_of_bind h
  obtain ⟨_, _, h16, h⟩ := taken_of_bind h
  obtain ⟨_, _, h17, h⟩ := taken_of_bind h
  obtain ⟨_, _, h18, h⟩ := taken_of_bind h
  obtain ⟨_, _, h19, h⟩ := taken_of_bind h
  obtain ⟨_, _, h20, h⟩ := taken_of_bind h
  obtain ⟨rfl, rfl⟩ := Prod.mk.inj (Option.some.inj h)
  obtain ⟨hd, rfl⟩ := takeStr8_some h1
  obtain ⟨hf, rfl⟩ := takeStr8_some h2
  obtain ⟨hi, h19⟩ := takeStr8_some h19
  refine ⟨by simp [SttRec.wellFormed, hd, hf, hi], ?_⟩
  rw [takeU16_some h3, takeU8_some h4, takeU8_some h5, takeU8_some h6, takeU8_some h7,
    takeU8_some h8, takeU32_some h9, takeF64_some h10, takeF64_some h11, takeF64_some h12,
    takeF64_some h13, takeU8_some h14, takeU8_some h15, takeU8_some h16, takeF64_some h17,
    takeU16_some h18, h19, takeU16_some h20]
  simp only [putSttRec, List.append_assoc, List.cons_append, List.nil_append]

/-! ### The decoder -/

/-- The decoder's errors are two: UnknownCommand for an unassigned or missing opcode,
MalformedCommand for its operands. -/
theorem decode_error {cmd : Bytes} {e : CommandError} (h : decode cmd = .error e) :
    e = .unknownCommand ∨ e = .malformedCommand := by
  cases cmd with
  | nil =>
    simp only [decode, Except.error.injEq] at h
    exact .inl h.symm
  | cons op operands =>
    simp only [decode] at h
    split at h
    · split at h
      · cases h
      · simp only [Except.error.injEq] at h
        exact .inr h.symm
    · simp only [Except.error.injEq] at h
      exact .inl h.symm

/-- Everything `decode` can accept: an assigned opcode whose operands are read to the last byte. -/
theorem decode_ok {cmd : Bytes} {i : Instr} (h : decode cmd = .ok i) :
    ∃ op operands, cmd = op :: operands ∧ opcodeAssigned op = true ∧
      takeCommand op operands = some (i, []) := by
  cases cmd with
  | nil => simp [decode] at h
  | cons op operands =>
    simp only [decode] at h
    split at h
    · rename_i ha
      split at h
      · rename_i j hj
        simp only [Except.ok.injEq] at h
        exact ⟨op, operands, rfl, ha, h ▸ hj⟩
      · cases h
    · cases h

end Sys2Proof
end

