-- ==== Sys2Proof/Laws/State.lean ====
section
/-! SUPPORT. One lemma for each field of the state under each update, so that no later proof unfolds
a record update. -/

namespace Sys2Proof.Machine

@[simp] theorem State.reset_serial : State.reset.serial = 1 := rfl
@[simp] theorem State.reset_command : State.reset.command = none := rfl
@[simp] theorem State.reset_response : State.reset.response = none := rfl

@[simp] theorem State.answered_serial (n : Word16) (bs : Bytes) :
    (State.answered n bs).serial = n := rfl
@[simp] theorem State.answered_command (n : Word16) (bs : Bytes) :
    (State.answered n bs).command = none := rfl
@[simp] theorem State.answered_response (n : Word16) (bs : Bytes) :
    (State.answered n bs).response = some bs := rfl

@[simp] theorem raiseError_serial (s : State) (e : CommandError) :
    (raiseError s e).serial = s.serial := rfl
@[simp] theorem raiseError_command (s : State) (e : CommandError) :
    (raiseError s e).command = none := rfl
@[simp] theorem raiseError_response (s : State) (e : CommandError) :
    (raiseError s e).response = some (errorResponse e) := rfl

@[simp] theorem State.holding_serial (n : Word16) (cmd : Bytes) :
    (State.holding n cmd).serial = n := rfl
@[simp] theorem State.holding_command (n : Word16) (cmd : Bytes) :
    (State.holding n cmd).command = some cmd := rfl
@[simp] theorem State.holding_response (n : Word16) (cmd : Bytes) :
    (State.holding n cmd).response = none := rfl

@[simp] theorem State.withFetchWord_serial (s : State) (nbits w : Nat) :
    (s.withFetchWord nbits w).serial = s.serial := rfl
@[simp] theorem State.withFetchWord_command (s : State) (nbits w : Nat) :
    (s.withFetchWord nbits w).command = some (tableCommand nbits w) := rfl
@[simp] theorem State.withFetchWord_response (s : State) (nbits w : Nat) :
    (s.withFetchWord nbits w).response = none := rfl

@[simp] theorem State.applyReset_eq (s : State) : s.applyReset = State.reset := rfl

end Sys2Proof.Machine
end

