-- ==== Sys2Proof/Laws/Ops.lean ====
section
/-! SUPPORT. What the shared operations can do, each said once: ending a command, the step, the
command port. -/

namespace Sys2Proof.Machine

/-- A command that succeeds within the result limit. -/
theorem finish_ok (s : State) {eff : Effect} (h : eff.result.length ≤ resultLimit) :
    finish s (.ok eff) = State.answered eff.serial (okResponse eff.result) := by
  simp [finish, h]

@[simp] theorem finish_error (s : State) (e : CommandError) :
    finish s (.error e) = raiseError s e := rfl

theorem finishPure_ok (s : State) {result : Bytes} (h : result.length ≤ resultLimit) :
    finishPure s (.ok result) = State.answered s.serial (okResponse result) :=
  finish_ok s h

@[simp] theorem finishPure_error (s : State) (e : CommandError) :
    finishPure s (.error e) = raiseError s e := rfl

/-- Everything `finish` can do: answer the result and write SERIAL, or raise an error. -/
theorem finish_cases (s : State) (r : Except CommandError Effect) :
    (∃ eff, r = .ok eff ∧ eff.result.length ≤ resultLimit ∧
      finish s r = State.answered eff.serial (okResponse eff.result)) ∨
    ∃ e, finish s r = raiseError s e := by
  cases r with
  | error e => exact .inr ⟨e, rfl⟩
  | ok eff =>
    by_cases h : eff.result.length ≤ resultLimit
    · exact .inl ⟨eff, rfl, h, finish_ok s h⟩
    · exact .inr ⟨.lengthOverflow, by simp [finish, h]⟩

@[simp] theorem finish_command (s : State) (r : Except CommandError Effect) :
    (finish s r).command = none := by
  obtain ⟨eff, -, -, h⟩ | ⟨e, h⟩ := finish_cases s r <;> simp [h]

/-- Everything `finishPure` can do: answer the result or raise an error; SERIAL keeps its value. -/
theorem finishPure_cases (s : State) (r : Except CommandError Bytes) :
    (∃ result, r = .ok result ∧ result.length ≤ resultLimit ∧
      finishPure s r = State.answered s.serial (okResponse result)) ∨
    ∃ e, finishPure s r = raiseError s e := by
  cases r with
  | error e => exact .inr ⟨e, rfl⟩
  | ok result =>
    by_cases h : result.length ≤ resultLimit
    · exact .inl ⟨result, rfl, h, finishPure_ok s h⟩
    · exact .inr ⟨.lengthOverflow, by simp [finishPure, finish, h]⟩

@[simp] theorem finishPure_serial (s : State) (r : Except CommandError Bytes) :
    (finishPure s r).serial = s.serial := by
  obtain ⟨_, -, -, h⟩ | ⟨e, h⟩ := finishPure_cases s r <;> simp [h]

@[simp] theorem finishPure_command (s : State) (r : Except CommandError Bytes) :
    (finishPure s r).command = none := by
  obtain ⟨_, -, -, h⟩ | ⟨e, h⟩ := finishPure_cases s r <;> simp [h]

/-- Every instruction answers: it ends in a result or in an error, through `finish`. -/
theorem exec_finish (i : Instr) (s : State) : ∃ r, exec i s = .next (finish s r) := by
  have pure_ : ∀ r : Except CommandError Bytes, ∃ r', answerPure s r = .next (finish s r') := by
    intro r
    cases r with
    | ok result => exact ⟨.ok { serial := s.serial, result := result }, rfl⟩
    | error e => exact ⟨.error e, rfl⟩
  cases i with
  | serialNext => exact ⟨_, rfl⟩
  | serialLoad value => exact ⟨_, rfl⟩
  | crc16 data => exact pure_ _
  | encBcd id => exact pure_ _
  | encCoord deg => exact pure_ _
  | encCourseStatus course flags => exact pure_ _
  | buildFrame code payload serial => exact pure_ _
  | buildLogin id serial => exact pure_ _
  | buildLocation r => exact pure_ _
  | parseFrame fr => exact pure_ _
  | serialRead => exact pure_ _
  | fmtField f => exact pure_ _
  | textRecord tag fields => exact pure_ _
  | buildStt r => exact pure_ _
  | buildAlv r => exact pure_ _

/-- Everything a step can do: wait, execute the decoded command, answer the error of its decoding,
or be refused for an overlapping command. -/
theorem step_cases (s : State) :
    (s.command = none ∧ step s = .next s) ∨
    (∃ cmd i, s.command = some cmd ∧ s.response = none ∧ decode cmd = .ok i ∧
      step s = exec i s) ∨
    (∃ cmd e, s.command = some cmd ∧ s.response = none ∧ decode cmd = .error e ∧
      step s = .next (raiseError s e)) ∨
    (∃ cmd r, s.command = some cmd ∧ s.response = some r ∧
      step s = .refused .overlappingCommand) := by
  obtain ⟨n, c, r⟩ := s
  cases c with
  | none => exact .inl ⟨rfl, rfl⟩
  | some cmd =>
    cases r with
    | some r => exact .inr (.inr (.inr ⟨cmd, r, rfl, rfl, rfl⟩))
    | none =>
      cases h : decode cmd with
      | ok i => exact .inr (.inl ⟨cmd, i, rfl, rfl, h, by simp [step, h]⟩)
      | error e => exact .inr (.inr (.inl ⟨cmd, e, rfl, rfl, h, by simp [step, h]⟩))

/-- Everything a step can do with a delivered command: answer it, SERIAL taking some value. -/
theorem step_holding (n : Word16) (cmd : Bytes) : ∃ (bytes : Bytes) (n' : Word16),
    step (State.holding n cmd) = .next (State.answered n' bytes) := by
  obtain ⟨h, -⟩ | ⟨c, i, -, -, -, h⟩ | ⟨c, e, -, -, -, h⟩ | ⟨c, r, -, h, -⟩ :=
    step_cases (State.holding n cmd)
  · simp [State.holding] at h
  · obtain ⟨r, hr⟩ := exec_finish i (State.holding n cmd)
    obtain ⟨eff, -, -, hf⟩ | ⟨e, hf⟩ := finish_cases (State.holding n cmd) r
    · exact ⟨_, _, by rw [h, hr, hf]⟩
    · exact ⟨_, _, by rw [h, hr, hf, raiseError]⟩
  · exact ⟨_, _, by rw [h, raiseError]⟩
  · simp [State.holding] at h

/-- A transaction of a waiting block is the step of the delivered command: the host reads what that
step answers and leaves the block waiting. -/
theorem transact_of_step {n n' : Word16} {cmd bytes : Bytes}
    (h : step (State.holding n cmd) = .next (State.answered n' bytes)) :
    transact (State.idle n) cmd = some (bytes, State.idle n') := by
  show (nextOf (step (State.holding n cmd))).bind State.takeResponse = _
  rw [h]
  rfl

/-- Everything `deliver` can do: put a command into a block that is ready. -/
theorem deliver_cases {s t : State} {cmd : Bytes} (h : s.deliver cmd = some t) :
    s.command = none ∧ s.response = none ∧ t = State.holding s.serial cmd := by
  obtain ⟨n, c, r⟩ := s
  cases c <;> cases r <;> simp [State.deliver, State.ready] at h
  exact ⟨rfl, rfl, h.symm⟩

/-- Everything `takeResponse` can do: take the pending response and nothing else. -/
theorem takeResponse_cases {s t : State} {bs : Bytes} (h : s.takeResponse = some (bs, t)) :
    s.response = some bs ∧ t.serial = s.serial ∧ t.command = s.command ∧ t.response = none := by
  obtain ⟨n, c, r⟩ := s
  cases r <;> simp [State.takeResponse] at h
  obtain ⟨rfl, rfl⟩ := h
  exact ⟨rfl, rfl, rfl, rfl⟩

end Sys2Proof.Machine
end

