-- ==== Sys2Proof/Laws/Codec.lean ====
section
/-! SUPPORT. What the codec's shared functions can do, each said once, so that a proof cites the
lemma and does not unfold the function. -/

namespace Sys2Proof.Machine

/-! ### CRC -/

@[simp] theorem crc16_nil : crc16 [] = 0 := rfl

theorem crc16_append (a b : Bytes) : crc16 (a ++ b) = b.foldl crcByte (crc16 a) := by
  simp [crc16, List.foldl_append]

/-! ### The exact value of a binary64 operand -/

theorem f64Den_pos (f : F64) : 0 < f64Den f := by
  unfold f64Den
  positivity

theorem abs_exactQ (f : F64) : |exactQ f| = (f64Magnitude f : ℚ) / (f64Den f : ℚ) := by
  have hn : |(f64Num f : ℚ)| = (f64Magnitude f : ℚ) := by
    unfold f64Num
    split <;> simp
  rw [exactQ, abs_div, hn, Nat.abs_cast]

/-- The model's range check of a coordinate is the one on the exact value. -/
theorem withinLimit_iff (f : F64) (limit : Nat) :
    WithinLimit f limit ↔ f64Finite f = true ∧ f64AbsLe f limit = true := by
  have hd : (0 : ℚ) < f64Den f := by exact_mod_cast f64Den_pos f
  rw [WithinLimit, abs_exactQ, div_le_iff₀ hd]
  simp only [f64AbsLe, decide_eq_true_eq]
  exact_mod_cast Iff.rfl

/-- The model's range check of an SFIX value is the one on the exact value. -/
theorem sfixInRange_iff (f : F64) :
    SfixInRange f ↔ f64Finite f = true ∧ f64AbsLt f sfixBound = true := by
  have hd : (0 : ℚ) < f64Den f := by exact_mod_cast f64Den_pos f
  rw [SfixInRange, abs_exactQ, div_lt_iff₀ hd]
  rw [f64AbsLt, decide_eq_true_iff, sfixBound]
  exact_mod_cast Iff.rfl

/-! ### Encoders -/

/-- Everything `bcd8` can do. -/
theorem bcd8_cases (id : Bytes) :
    (validIdentity id = true ∧ bcd8 id = .ok (packDigits (padIdentity id))) ∨
    (validIdentity id = false ∧ bcd8 id = .error .invalidIdentity) := by
  cases h : validIdentity id <;> simp [bcd8, h]

/-- Everything `coord` can do. -/
theorem coord_cases (f : F64) (limit : Nat) :
    (f64Finite f = true ∧ f64AbsLe f limit = true ∧
      coord f limit = .ok (rhe (f64Magnitude f * coordScale : Nat) (f64Den f)).toNat) ∨
    ((f64Finite f = false ∨ f64AbsLe f limit = false) ∧ coord f limit = .error .coordRange) := by
  cases h : f64Finite f <;> cases h' : f64AbsLe f limit <;> simp [coord, h, h']

/-- Everything `courseStatus` can do. -/
theorem courseStatus_cases (c : Int) (flags : Byte) :
    (flagsReserved flags = false ∧ courseStatus c flags =
      .ok ((BitVec.ofNat 16 (packedCourse c) <<< 6) ||| (statusBits flags).setWidth 16)) ∨
    (flagsReserved flags = true ∧ courseStatus c flags = .error .malformedCommand) := by
  cases h : flagsReserved flags <;> simp [courseStatus, h]

theorem packedCourse_bounds (c : Int) : 1 ≤ packedCourse c ∧ packedCourse c ≤ 359 := by
  unfold packedCourse
  split <;> omega

/-! ### Frames -/

theorem frameBody_length (code : Byte) (payload : Bytes) (serial : Word16) :
    (frameBody code payload serial).length = payload.length + 4 := by
  simp [frameBody, putU16]
  omega

/-- Everything `frame` can do. -/
theorem frame_cases (code : Byte) (payload : Bytes) (serial : Word16) :
    (payload.length ≤ payloadLimit ∧ frame code payload serial =
      .ok (startMarker ++ frameBody code payload serial ++
        putU16 (crc16 (frameBody code payload serial)) ++ endMarker)) ∨
    (payloadLimit < payload.length ∧ frame code payload serial = .error .lengthOverflow) := by
  by_cases h : payloadLimit < payload.length
  · exact .inr ⟨h, by simp [frame, h]⟩
  · exact .inl ⟨by omega, by simp [frame, h]⟩

/-! ### Text -/

/-- The decimal spelling, digit by digit. -/
theorem decDigits_enough (fuel v : Nat) (h : v ≤ fuel) : decDigits fuel v = dec v := by
  induction fuel using Nat.strong_induction_on generalizing v with
  | _ fuel ih =>
    by_cases hv : v < 10
    · cases fuel <;> cases v <;> simp_all [dec, decDigits, Nat.mod_eq_of_lt hv]
    · obtain ⟨fuel, rfl⟩ : ∃ k, fuel = k + 1 := ⟨fuel - 1, by omega⟩
      obtain ⟨w, rfl⟩ : ∃ k, v = k + 1 := ⟨v - 1, by omega⟩
      rw [dec, decDigits, decDigits, if_neg hv, if_neg hv, ih fuel (by omega) _ (by omega)]
      congr 1
      by_cases hw : w < fuel + 1
      · by_cases he : w = fuel
        · rw [he, ih fuel (by omega) _ (by omega)]
        · rw [ih w (by omega) _ (by omega)]
      · omega

theorem dec_of_lt {v : Nat} (h : v < 10) : dec v = [digitByte v] := by
  cases v with
  | zero => rfl
  | succ v => simp [dec, decDigits, h]

theorem dec_of_ge {v : Nat} (h : 10 ≤ v) : dec v = dec (v / 10) ++ [digitByte (v % 10)] := by
  obtain ⟨w, rfl⟩ : ∃ k, v = k + 1 := ⟨v - 1, by omega⟩
  rw [dec, decDigits, if_neg (by omega), decDigits_enough _ _ (by omega)]

/-- Everything `checkText` can do. -/
theorem checkText_cases (s : Bytes) :
    (s.all legalTextByte = true ∧ checkText s = .ok ()) ∨
    (s.all legalTextByte = false ∧ checkText s = .error .fieldChar) := by
  cases h : s.all legalTextByte <;> simp [checkText, h]

/-- Everything `fmtStr` can do. -/
theorem fmtStr_cases (s : Bytes) :
    (s.all legalTextByte = true ∧ fmtStr s = .ok s) ∨
    (s.all legalTextByte = false ∧ fmtStr s = .error .fieldChar) := by
  obtain ⟨h, hc⟩ | ⟨h, hc⟩ := checkText_cases s
  · exact .inl ⟨h, by simp only [fmtStr, hc]; rfl⟩
  · exact .inr ⟨h, by simp only [fmtStr, hc]; rfl⟩

/-- Everything `fmtUdec` can do. -/
theorem fmtUdec_cases (w v : Nat) :
    (w = 0 ∧ fmtUdec w v = .ok (dec v)) ∨
    (0 < w ∧ (dec v).length ≤ w ∧
      fmtUdec w v = .ok (zeroDigits (w - (dec v).length) ++ dec v)) ∨
    (0 < w ∧ w < (dec v).length ∧ fmtUdec w v = .error .fieldRange) := by
  rcases Nat.eq_zero_or_pos w with h | h
  · exact .inl ⟨h, by simp [fmtUdec, h]⟩
  · have h0 : w ≠ 0 := by omega
    by_cases hw : w < (dec v).length
    · exact .inr (.inr ⟨h, hw, by simp [fmtUdec, h0, hw]⟩)
    · exact .inr (.inl ⟨h, by omega, by simp [fmtUdec, h0, hw]⟩)

/-- Everything `fmtSfix` can do. -/
theorem fmtSfix_cases (p : Nat) (f : F64) :
    (f64Finite f = true ∧ f64AbsLt f sfixBound = true ∧
      fmtSfix p f = .ok (fixedText p (rhe (f64Num f * 10 ^ p) (f64Den f)))) ∨
    ((f64Finite f = false ∨ f64AbsLt f sfixBound = false) ∧
      fmtSfix p f = .error .fieldRange) := by
  cases h : f64Finite f <;> cases h' : f64AbsLt f sfixBound <;> simp [fmtSfix, h, h']

/-- Everything `coordField` can do. -/
theorem coordField_cases (p limit : Nat) (f : F64) :
    (f64Finite f = true ∧ f64AbsLe f limit = true ∧ coordField p limit f = fmtSfix p f) ∨
    ((f64Finite f = false ∨ f64AbsLe f limit = false) ∧
      coordField p limit f = .error .coordRange) := by
  cases h : f64Finite f <;> cases h' : f64AbsLe f limit <;> simp [coordField, h, h']

theorem forM_checkText_cases (fields : List Bytes) :
    ((∀ f ∈ fields, f.all legalTextByte = true) ∧ fields.forM checkText = .ok ()) ∨
    ((∃ f ∈ fields, f.all legalTextByte = false) ∧
      fields.forM checkText = .error .fieldChar) := by
  induction fields with
  | nil => exact .inl ⟨by simp, rfl⟩
  | cons f fs ih =>
    obtain ⟨h, hc⟩ | ⟨h, hc⟩ := checkText_cases f
    · obtain ⟨hs, hm⟩ | ⟨⟨g, hg, hb⟩, hm⟩ := ih
      · refine .inl ⟨fun x hx => ?_, ?_⟩
        · rcases List.mem_cons.1 hx with rfl | hx
          · exact h
          · exact hs x hx
        · change (checkText f >>= fun _ => fs.forM checkText) = _
          rw [hc, hm]
          rfl
      · refine .inr ⟨⟨g, List.mem_cons_of_mem _ hg, hb⟩, ?_⟩
        change (checkText f >>= fun _ => fs.forM checkText) = _
        rw [hc, hm]
        rfl
    · refine .inr ⟨⟨f, List.mem_cons_self, h⟩, ?_⟩
      change (checkText f >>= fun _ => fs.forM checkText) = _
      rw [hc]
      rfl

/-- Everything `record` can do, in the order of its checks. -/
theorem record_cases (tag : Bytes) (fields : List Bytes) :
    (tag = [] ∧ record tag fields = .error .malformedCommand) ∨
    (tag ≠ [] ∧ (∃ f ∈ tag :: fields, f.all legalTextByte = false) ∧
      record tag fields = .error .fieldChar) ∨
    (tag ≠ [] ∧ (∀ f ∈ tag :: fields, f.all legalTextByte = true) ∧
      65535 < (joinRecord tag fields).length ∧ record tag fields = .error .lengthOverflow) ∨
    (tag ≠ [] ∧ (∀ f ∈ tag :: fields, f.all legalTextByte = true) ∧
      (joinRecord tag fields).length ≤ 65535 ∧
      record tag fields = .ok (joinRecord tag fields)) := by
  by_cases ht : tag = []
  · exact .inl ⟨ht, by simp [record, ht]⟩
  · have hl : ¬ tag.length = 0 := by simpa using ht
    obtain ⟨h, hc⟩ | ⟨h, hc⟩ := checkText_cases tag
    · obtain ⟨hs, hm⟩ | ⟨⟨g, hg, hb⟩, hm⟩ := forM_checkText_cases fields
      · have hall : ∀ f ∈ tag :: fields, f.all legalTextByte = true := by
          intro x hx
          rcases List.mem_cons.1 hx with rfl | hx
          · exact h
          · exact hs x hx
        by_cases ho : 65535 < (joinRecord tag fields).length
        · refine .inr (.inr (.inl ⟨ht, hall, ho, ?_⟩))
          rw [record, if_neg hl, hc, hm]
          simp only [bind, Except.bind, if_pos ho]
          rfl
        · refine .inr (.inr (.inr ⟨ht, hall, by omega, ?_⟩))
          rw [record, if_neg hl, hc, hm]
          simp only [bind, Except.bind, if_neg ho]
          rfl
      · refine .inr (.inl ⟨ht, ⟨g, List.mem_cons_of_mem _ hg, hb⟩, ?_⟩)
        rw [record, if_neg hl, hc, hm]
        rfl
    · refine .inr (.inl ⟨ht, ⟨tag, List.mem_cons_self, h⟩, ?_⟩)
      rw [record, if_neg hl, hc]
      rfl

/-- Everything `sttFields` can do: all the listed fields have a text, or the first one that has none
says the error. -/
theorem sttFields_cases (P : Params) (r : SttRec) (ks : List SttField) :
    (∃ gs, sttFields P r ks = .ok gs ∧ gs.length = ks.length ∧
      List.Forall₂ (fun k g => sttField P r k = .ok g) ks gs) ∨
    (∃ before k after e, ks = before ++ k :: after ∧
      (∀ j ∈ before, ∃ g, sttField P r j = .ok g) ∧ sttField P r k = .error e ∧
      sttFields P r ks = .error e) := by
  induction ks with
  | nil => exact .inl ⟨[], rfl, rfl, .nil⟩
  | cons k ks ih =>
    cases hk : sttField P r k with
    | error e =>
      refine .inr ⟨[], k, ks, e, rfl, by simp, hk, ?_⟩
      simp only [sttFields, hk]
      rfl
    | ok g =>
      obtain ⟨gs, hgs, hl, hf⟩ | ⟨before, k', after, e, rfl, hb, hk', he⟩ := ih
      · refine .inl ⟨g :: gs, ?_, by simp [hl], .cons hk hf⟩
        simp only [sttFields, hk, hgs]
        rfl
      · refine .inr ⟨k :: before, k', after, e, rfl, ?_, hk', ?_⟩
        · intro j hj
          rcases List.mem_cons.1 hj with rfl | hj
          · exact ⟨g, hk⟩
          · exact hb j hj
        · simp only [sttFields, hk, he]
          rfl

end Sys2Proof.Machine
end

