-- ==== Sys2Proof/Laws/PerInstr.lean ====
section
/-! SUPPORT. Statements for every instruction, made constructor by constructor. -/

namespace Sys2Proof.Laws.EncodesAssignedOpcode

/-- The command that carries an instruction begins with an assigned opcode
(30_encoding.md rules R60, R65). -/
def Statement (i : Instr) : Prop :=
  ∃ op operands, encode i = op :: operands ∧ opcodeAssigned op = true

theorem crc16 (data : Bytes) : Statement (.crc16 data) := ⟨0x10, _, rfl, by decide⟩
theorem encBcd (id : Bytes) : Statement (.encBcd id) := ⟨0x20, _, rfl, by decide⟩
theorem encCoord (deg : F64) : Statement (.encCoord deg) := ⟨0x21, _, rfl, by decide⟩
theorem encCourseStatus (course : Word16) (flags : Byte) :
    Statement (.encCourseStatus course flags) := ⟨0x22, _, rfl, by decide⟩
theorem buildFrame (code : Byte) (payload : Bytes) (serial : Word16) :
    Statement (.buildFrame code payload serial) := ⟨0x30, _, rfl, by decide⟩
theorem buildLogin (id : Bytes) (serial : Word16) : Statement (.buildLogin id serial) :=
  ⟨0x31, _, rfl, by decide⟩
theorem buildLocation (r : LocRec) : Statement (.buildLocation r) := ⟨0x32, _, rfl, by decide⟩
theorem parseFrame (frame : Bytes) : Statement (.parseFrame frame) := ⟨0x38, _, rfl, by decide⟩
theorem serialRead : Statement .serialRead := ⟨0x40, _, rfl, by decide⟩
theorem serialNext : Statement .serialNext := ⟨0x41, _, rfl, by decide⟩
theorem serialLoad (value : Word16) : Statement (.serialLoad value) := ⟨0x42, _, rfl, by decide⟩
theorem fmtField (f : FieldFmt) : Statement (.fmtField f) := ⟨0x50, _, rfl, by decide⟩
theorem textRecord (tag : Bytes) (fields : List Bytes) : Statement (.textRecord tag fields) :=
  ⟨0x51, _, rfl, by decide⟩
theorem buildStt (r : SttRec) : Statement (.buildStt r) := ⟨0x52, _, rfl, by decide⟩
theorem buildAlv (r : SttRec) : Statement (.buildAlv r) := ⟨0x53, _, rfl, by decide⟩

end Sys2Proof.Laws.EncodesAssignedOpcode
end

