-- ==== Sys2Proof/Tests/Slice0.lean ====
section
/-! SUPPORT. Tests of the model. Expected values come from the spec: the vectors of
95_test_vectors.md (section named at each test), the examples of the command rules, or the
encodings of 30_encoding.md written out by hand. -/

namespace Sys2Proof.Tests

set_option maxRecDepth 20000

open Sys2Proof.Machine

/-- The response a command gets from a block whose SERIAL is `n`. -/
def respond (n : Word16) (cmd : Bytes) : Option Bytes :=
  (nextOf (step (State.holding n cmd))).bind State.response

/-- SERIAL after a command. -/
def serialAfter (n : Word16) (cmd : Bytes) : Option Word16 :=
  (nextOf (step (State.holding n cmd))).map State.serial

/-- The parameters of the spec's derived vectors (95_test_vectors.md, opening), W = 3. -/
def vectorParams : Params where
  cellIdWidth := 3
  pLatLon := 6
  pSpeed := 2
  pCourse := 2
  pBatt := 2
  tagStt := [0x44, 0x45, 0x56, 0x53, 0x54, 0x54]
  tagAlv := [0x44, 0x45, 0x56, 0x41, 0x4C, 0x56]
  alvFields := [.deviceId]

/-- The base LocRec of 95_test_vectors.md section 2.6. -/
def baseLocRec : LocRec where
  year := 2024
  month := 3
  day := 15
  hour := 12
  minute := 34
  second := 56
  gps := 0xC9
  lat := 0xC02DD9F559B3D07D
  lon := 0xC045F79DB22D0E56
  speed := 60
  course := 0
  flags := 0x31
  mcc := 724
  mnc := 5
  lac := 0x1234
  cell := 0x00ABCDEF
  serial := 2

/-- The base SttRec of 95_test_vectors.md section 2.11. -/
def baseSttRec : SttRec where
  dev := [0x32, 0x30, 0x35, 0x30, 0x30, 0x30, 0x30, 0x30, 0x31]
  fw := [0x31, 0x2E, 0x30, 0x2E, 0x33]
  year := 2024
  month := 3
  day := 15
  hour := 12
  minute := 34
  second := 56
  odometer := 1234
  lat := 0xC02DD9F559B3D07D
  lon := 0xC045F79DB22D0E56
  speed := 0x404E400000000000
  course := 0x4070F40000000000
  sats := 9
  fix := 1
  ignition := 1
  battery := 0x4029800000000000
  signal := 0xFFB9
  io := [0x30, 0x30, 0x30, 0x30, 0x30, 0x30]
  event := 0

/-! ### Well-formedness: an ill-formed term for each check -/

theorem test_wf_flags_reserved_bit :
    Instr.wellFormed (.encCourseStatus 1 0x02) = false := by decide
theorem test_wf_location_flags_reserved_bit :
    Instr.wellFormed (.buildLocation { baseLocRec with flags := 0x33 }) = false := by decide
theorem test_wf_udec_width : Instr.wellFormed (.fmtField (.udec 11 1)) = false := by decide
theorem test_wf_sfix_precision : Instr.wellFormed (.fmtField (.sfix 10 0)) = false := by decide
theorem test_wf_str_length :
    Instr.wellFormed (.fmtField (.str (List.replicate 256 0x41))) = false := by decide
theorem test_wf_id_length :
    Instr.wellFormed (.encBcd (List.replicate 256 0x30)) = false := by decide
theorem test_wf_payload_length :
    Instr.wellFormed (.buildFrame 0 (List.replicate 256 0) 0) = false := by decide
theorem test_wf_login_length :
    Instr.wellFormed (.buildLogin (List.replicate 256 0x30) 0) = false := by decide
theorem test_wf_crc_length :
    Instr.wellFormed (.crc16 (List.replicate 65536 0)) = false := by
  rw [Instr.wellFormed, fitsStr16, List.length_replicate]
  decide
theorem test_wf_frame_length :
    Instr.wellFormed (.parseFrame (List.replicate 65536 0)) = false := by
  rw [Instr.wellFormed, fitsStr16, List.length_replicate]
  decide
theorem test_wf_tag_length :
    Instr.wellFormed (.textRecord (List.replicate 256 0x41) []) = false := by decide
theorem test_wf_field_count :
    Instr.wellFormed (.textRecord [0x41] (List.replicate 256 [])) = false := by decide
theorem test_wf_field_length :
    Instr.wellFormed (.textRecord [0x41] [List.replicate 256 0x41]) = false := by decide
theorem test_wf_dev_length :
    Instr.wellFormed (.buildStt { baseSttRec with dev := List.replicate 256 0x41 }) = false := by
  decide
theorem test_wf_fw_length :
    Instr.wellFormed (.buildStt { baseSttRec with fw := List.replicate 256 0x41 }) = false := by
  decide
theorem test_wf_io_length :
    Instr.wellFormed (.buildAlv { baseSttRec with io := List.replicate 256 0x41 }) = false := by
  decide
theorem test_wf_base_records :
    Instr.wellFormed (.buildLocation baseLocRec) = true ∧
      Instr.wellFormed (.buildStt baseSttRec) = true := by decide

/-! ### Decoding: one command of every constructor, written out from 30_encoding.md R65 to R68 -/

theorem test_decode_crc16 :
    decode [0x10, 0x00, 0x02, 0x01, 0x00] = .ok (.crc16 [0x01, 0x00]) := by decide
theorem test_decode_encBcd :
    decode [0x20, 0x02, 0x31, 0x32] = .ok (.encBcd [0x31, 0x32]) := by decide
theorem test_decode_encCoord :
    decode [0x21, 0xC0, 0x2D, 0xD9, 0xF5, 0x59, 0xB3, 0xD0, 0x7D] =
      .ok (.encCoord 0xC02DD9F559B3D07D) := by decide
theorem test_decode_encCourseStatus :
    decode [0x22, 0xFE, 0x98, 0x31] = .ok (.encCourseStatus 0xFE98 0x31) := by decide
theorem test_decode_buildFrame :
    decode [0x30, 0x13, 0x01, 0xAA, 0x12, 0x34] = .ok (.buildFrame 0x13 [0xAA] 0x1234) := by
  decide
theorem test_decode_buildLogin :
    decode [0x31, 0x01, 0x35, 0x12, 0x34] = .ok (.buildLogin [0x35] 0x1234) := by decide
theorem test_decode_buildLocation :
    decode [0x32, 0x07, 0xE8, 0x03, 0x0F, 0x0C, 0x22, 0x38, 0xC9,
      0xC0, 0x2D, 0xD9, 0xF5, 0x59, 0xB3, 0xD0, 0x7D,
      0xC0, 0x45, 0xF7, 0x9D, 0xB2, 0x2D, 0x0E, 0x56,
      0x3C, 0x00, 0x00, 0x31, 0x02, 0xD4, 0x05, 0x12, 0x34, 0x00, 0xAB, 0xCD, 0xEF, 0x00, 0x02] =
    .ok (.buildLocation baseLocRec) := by decide
theorem test_decode_parseFrame :
    decode [0x38, 0x00, 0x01, 0x78] = .ok (.parseFrame [0x78]) := by decide
theorem test_decode_serialRead : decode [0x40] = .ok .serialRead := by decide
theorem test_decode_serialNext : decode [0x41] = .ok .serialNext := by decide
theorem test_decode_serialLoad : decode [0x42, 0xFF, 0xFE] = .ok (.serialLoad 0xFFFE) := by decide
theorem test_decode_fmt_str : decode [0x50, 0x00, 0x01, 0x41] = .ok (.fmtField (.str [0x41])) := by
  decide
theorem test_decode_fmt_udec :
    decode [0x50, 0x01, 0x05, 0x00, 0x01, 0x86, 0x9F] = .ok (.fmtField (.udec 5 99999)) := by
  decide
theorem test_decode_fmt_sdec :
    decode [0x50, 0x02, 0xFF, 0xFF, 0xFF, 0xFB] = .ok (.fmtField (.sdec 0xFFFFFFFB)) := by decide
theorem test_decode_fmt_sfix :
    decode [0x50, 0x03, 0x06, 0xC0, 0x45, 0xF7, 0x9D, 0xB2, 0x2D, 0x0E, 0x56] =
      .ok (.fmtField (.sfix 6 0xC045F79DB22D0E56)) := by decide
theorem test_decode_fmt_date8 :
    decode [0x50, 0x04, 0x07, 0xE8, 0x03, 0x0F] = .ok (.fmtField (.date8 2024 3 15)) := by decide
theorem test_decode_fmt_time6 :
    decode [0x50, 0x05, 0x0C, 0x22, 0x38] = .ok (.fmtField (.time6 12 34 56)) := by decide
theorem test_decode_fmt_flag : decode [0x50, 0x06, 0x01] = .ok (.fmtField (.flag 1)) := by decide
theorem test_decode_textRecord :
    decode [0x51, 0x01, 0x54, 0x03, 0x01, 0x61, 0x00, 0x01, 0x62] =
      .ok (.textRecord [0x54] [[0x61], [], [0x62]]) := by decide

/-- The operand bytes of the base SttRec (95_test_vectors.md section 2.11). -/
def baseSttBytes : Bytes :=
  [0x09, 0x32, 0x30, 0x35, 0x30, 0x30, 0x30, 0x30, 0x30, 0x31, 0x05, 0x31, 0x2E, 0x30, 0x2E, 0x33,
   0x07, 0xE8, 0x03, 0x0F, 0x0C, 0x22, 0x38, 0x00, 0x00, 0x04, 0xD2] ++
  [0xC0, 0x2D, 0xD9, 0xF5, 0x59, 0xB3, 0xD0, 0x7D, 0xC0, 0x45, 0xF7, 0x9D, 0xB2, 0x2D, 0x0E, 0x56,
   0x40, 0x4E, 0x40, 0x00, 0x00, 0x00, 0x00, 0x00, 0x40, 0x70, 0xF4, 0x00, 0x00, 0x00, 0x00, 0x00,
   0x09, 0x01, 0x01, 0x40, 0x29, 0x80, 0x00, 0x00, 0x00, 0x00, 0x00, 0xFF, 0xB9,
   0x06, 0x30, 0x30, 0x30, 0x30, 0x30, 0x30, 0x00, 0x00]

theorem test_decode_buildStt :
    decode (0x52 :: baseSttBytes) = .ok (.buildStt baseSttRec) := by decide
theorem test_decode_buildAlv :
    decode (0x53 :: baseSttBytes) = .ok (.buildAlv baseSttRec) := by decide
theorem test_encode_buildStt : encode (.buildStt baseSttRec) = 0x52 :: baseSttBytes := by
  decide

/-! ### Rejections (95_test_vectors.md section 2.12, 2.4, 2.9) -/

theorem test_decode_empty : decode [] = .error .unknownCommand := by decide
theorem test_decode_unassigned : decode [0x11, 0x00, 0x00] = .error .unknownCommand := by decide
theorem test_decode_short : decode [0x10] = .error .malformedCommand := by decide
theorem test_decode_left_over : decode [0x10, 0x00, 0x00, 0x00] = .error .malformedCommand := by
  decide
theorem test_decode_reserved_flag :
    decode [0x22, 0x00, 0x05, 0x40] = .error .malformedCommand := by decide
theorem test_decode_reserved_fmt : decode [0x50, 0x07, 0x00] = .error .malformedCommand := by
  decide
theorem test_decode_reserved_width :
    decode [0x50, 0x01, 0x0B, 0x00, 0x00, 0x00, 0x01] = .error .malformedCommand := by decide

/-! ### The rows of the opcode table -/

theorem test_table_row_crc16 : decodeTableWord 8 0x10 = some (.crc16 []) := by decide
theorem test_table_row_textRecord : decodeTableWord 8 0x51 = some (.textRecord [] []) := by decide
theorem test_table_row_runs :
    (nextOf (step (State.reset.withFetchWord 8 0x41))).map State.serial = some 2 := by decide

/-! ### Meanings, at most two a command -/

/-- 95_test_vectors.md section 2.1. -/
theorem test_crc16_check_value :
    respond 1 [0x10, 0x00, 0x09, 0x31, 0x32, 0x33, 0x34, 0x35, 0x36, 0x37, 0x38, 0x39] =
      some [0x00, 0x00, 0x02, 0x31, 0xC3] := by decide
theorem test_crc16_order :
    respond 1 [0x10, 0x00, 0x02, 0x01, 0x00] = some [0x00, 0x00, 0x02, 0x33, 0x31] := by
  decide

/-- 95_test_vectors.md section 2.2. -/
theorem test_encBcd_pads :
    respond 1 [0x20, 0x0F, 0x33, 0x35, 0x32, 0x38, 0x31, 0x32, 0x31, 0x39, 0x32, 0x30, 0x30, 0x38,
      0x39, 0x36, 0x31] =
    some [0x00, 0x00, 0x08, 0x03, 0x52, 0x81, 0x21, 0x92, 0x00, 0x89, 0x61] := by decide
theorem test_encBcd_newline :
    respond 1 [0x20, 0x10, 0x30, 0x33, 0x35, 0x32, 0x38, 0x31, 0x32, 0x31, 0x39, 0x32, 0x30, 0x30,
      0x38, 0x39, 0x36, 0x0A] = some [0x01, 0x00, 0x00] := by decide

/-- 95_test_vectors.md section 2.3: the row where binary64 arithmetic would differ, and the first
value past the limit. -/
theorem test_encCoord_exact :
    respond 1 [0x21, 0x40, 0x32, 0xD2, 0x85, 0x1C, 0x63, 0xCB, 0xF9] =
      some [0x00, 0x00, 0x04, 0x02, 0x04, 0xF8, 0x9B] := by decide
theorem test_encCoord_past_limit :
    respond 1 [0x21, 0x40, 0x66, 0x80, 0x00, 0x00, 0x00, 0x00, 0x01] =
      some [0x05, 0x00, 0x00] := by decide

/-- 95_test_vectors.md section 2.4. -/
theorem test_encCourseStatus_negative :
    respond 1 [0x22, 0x80, 0x00, 0x00] = some [0x00, 0x00, 0x02, 0x58, 0x00] := by decide
theorem test_encCourseStatus_zero :
    respond 1 [0x22, 0x00, 0x00, 0x31] = some [0x00, 0x00, 0x02, 0x59, 0xF1] := by decide

/-- 95_test_vectors.md section 2.5. -/
theorem test_buildFrame_empty :
    respond 1 [0x30, 0x13, 0x00, 0xFF, 0xFF] =
      some [0x00, 0x00, 0x0A, 0x78, 0x78, 0x05, 0x13, 0xFF, 0xFF, 0xBB, 0x79, 0x0D, 0x0A] := by
  decide
theorem test_buildFrame_too_long :
    (nextOf (exec (.buildFrame 0x12 (List.replicate 251 0) 7) State.reset)).bind State.response =
      some [0x04, 0x00, 0x00] := by decide
theorem test_buildLogin_wrap :
    respond 1 [0x31, 0x0F, 0x33, 0x35, 0x32, 0x38, 0x31, 0x32, 0x31, 0x39, 0x32, 0x30, 0x30, 0x38,
      0x39, 0x36, 0x31, 0xFF, 0xFF] =
    some [0x00, 0x00, 0x12, 0x78, 0x78, 0x0D, 0x01, 0x03, 0x52, 0x81, 0x21, 0x92, 0x00, 0x89, 0x61,
      0xFF, 0xFF, 0x00, 0xF5, 0x0D, 0x0A] := by decide

/-- 95_test_vectors.md section 2.6, W = 3 and W = 4. -/
theorem test_buildLocation_w3 :
    locationFrame vectorParams baseLocRec =
      .ok [0x78, 0x78, 0x1F, 0x12, 0x18, 0x03, 0x0F, 0x0C, 0x22, 0x38, 0xC9, 0x01, 0x99, 0xF2, 0x54,
        0x04, 0xB6, 0xB2, 0x74, 0x3C, 0x59, 0xF1, 0x02, 0xD4, 0x05, 0x12, 0x34, 0xAB, 0xCD, 0xEF,
        0x00, 0x02, 0x94, 0x3B, 0x0D, 0x0A] := by decide
theorem test_buildLocation_w4 :
    locationFrame { vectorParams with cellIdWidth := 4 } baseLocRec =
      .ok [0x78, 0x78, 0x20, 0x12, 0x18, 0x03, 0x0F, 0x0C, 0x22, 0x38, 0xC9, 0x01, 0x99, 0xF2, 0x54,
        0x04, 0xB6, 0xB2, 0x74, 0x3C, 0x59, 0xF1, 0x02, 0xD4, 0x05, 0x12, 0x34, 0x00, 0xAB, 0xCD,
        0xEF, 0x00, 0x02, 0x11, 0x30, 0x0D, 0x0A] := by decide

/-- 95_test_vectors.md section 2.7. -/
theorem test_parseFrame_login :
    respond 1 [0x38, 0x00, 0x12, 0x78, 0x78, 0x0D, 0x01, 0x03, 0x52, 0x81, 0x21, 0x92, 0x00, 0x89,
      0x61, 0x00, 0x01, 0x0D, 0xDB, 0x0D, 0x0A] =
    some [0x00, 0x00, 0x0E, 0x01, 0x08, 0x03, 0x52, 0x81, 0x21, 0x92, 0x00, 0x89, 0x61, 0x00, 0x01,
      0x0D, 0xDB] := by decide
theorem test_parseFrame_trailing_byte :
    respond 1 [0x38, 0x00, 0x13, 0x78, 0x78, 0x0D, 0x01, 0x03, 0x52, 0x81, 0x21, 0x92, 0x00, 0x89,
      0x61, 0x00, 0x01, 0x0D, 0xDB, 0x0D, 0x0A, 0x00] = some [0x03, 0x00, 0x01, 0x03] := by
  decide

/-- 95_test_vectors.md section 2.8. -/
theorem test_serialRead_after_reset : respond 1 [0x40] = some [0x00, 0x00, 0x02, 0x00, 0x01] := by
  decide
theorem test_serialNext_wraps : serialAfter 65535 [0x41] = some 0 := by decide
theorem test_serialNext_malformed :
    serialAfter 7 [0x41, 0x00] = some 7 ∧ respond 7 [0x41, 0x00] = some [0x08, 0x00, 0x00] := by
  decide
theorem test_serialLoad : serialAfter 1 [0x42, 0xFF, 0xFE] = some 65534 := by decide
theorem test_serialLoad_short : serialAfter 7 [0x42, 0x05] = some 7 := by decide

/-- 95_test_vectors.md section 2.9: rounding of ties, and no negative zero. -/
theorem test_sfix_tie :
    formatField (.sfix 2 0x3FC0000000000000) = .ok [0x30, 0x2E, 0x31, 0x32] := by decide
theorem test_sfix_no_negative_zero :
    formatField (.sfix 1 0xBFA47AE147AE147B) = .ok [0x30, 0x2E, 0x30] := by decide
theorem test_sdec_minimum :
    formatField (.sdec 0x80000000) =
      .ok [0x2D, 0x32, 0x31, 0x34, 0x37, 0x34, 0x38, 0x33, 0x36, 0x34, 0x38] := by decide
theorem test_udec_too_wide : formatField (.udec 5 100000) = .error .fieldRange := by
  decide

/-- 95_test_vectors.md section 2.10. -/
theorem test_textRecord_join :
    respond 1 [0x51, 0x01, 0x54, 0x03, 0x01, 0x61, 0x00, 0x01, 0x62] =
      some [0x00, 0x00, 0x07, 0x54, 0x3B, 0x61, 0x3B, 0x3B, 0x62, 0x0D] := by decide
theorem test_textRecord_empty_tag :
    respond 1 [0x51, 0x00, 0x01, 0x01, 0x78] = some [0x08, 0x00, 0x00] := by decide

/-- 95_test_vectors.md section 2.11. -/
theorem test_sttRecord_base :
    sttRecord vectorParams baseSttRec = .ok (
      [0x44, 0x45, 0x56, 0x53, 0x54, 0x54, 0x3B, 0x32, 0x30, 0x35, 0x30, 0x30, 0x30, 0x30, 0x30,
       0x31, 0x3B, 0x31, 0x2E, 0x30, 0x2E, 0x33, 0x3B, 0x32, 0x30, 0x32, 0x34, 0x30, 0x33, 0x31,
       0x35, 0x3B, 0x31, 0x32, 0x33, 0x34, 0x35, 0x36, 0x3B, 0x30, 0x31, 0x32, 0x33, 0x34, 0x3B] ++
      [0x2D, 0x31, 0x34, 0x2E, 0x39, 0x32, 0x35, 0x37, 0x30, 0x30, 0x3B, 0x2D, 0x34, 0x33, 0x2E,
       0x39, 0x33, 0x34, 0x35, 0x30, 0x30, 0x3B, 0x36, 0x30, 0x2E, 0x35, 0x30, 0x3B, 0x32, 0x37,
       0x31, 0x2E, 0x32, 0x35, 0x3B, 0x39, 0x3B, 0x31, 0x3B, 0x31, 0x3B, 0x31, 0x32, 0x2E, 0x37,
       0x35, 0x3B, 0x2D, 0x37, 0x31, 0x3B, 0x30, 0x30, 0x30, 0x30, 0x30, 0x30, 0x3B, 0x30,
       0x0D]) := by decide
theorem test_sttRecord_first_error :
    sttRecord vectorParams { baseSttRec with dev := [0x32, 0x30, 0x3B, 0x35], odometer := 100000 } =
      .error .fieldChar := by decide
theorem test_alvRecord_base :
    alvRecord { vectorParams with alvFields := [.deviceId, .firmware, .date, .time] } baseSttRec =
      .ok [0x44, 0x45, 0x56, 0x41, 0x4C, 0x56, 0x3B, 0x32, 0x30, 0x35, 0x30, 0x30, 0x30, 0x30, 0x30,
        0x31, 0x3B, 0x31, 0x2E, 0x30, 0x2E, 0x33, 0x3B, 0x32, 0x30, 0x32, 0x34, 0x30, 0x33, 0x31,
        0x35, 0x3B, 0x31, 0x32, 0x33, 0x34, 0x35, 0x36, 0x0D] := by decide
theorem test_alvRecord_unlisted_latitude :
    alvRecord vectorParams { baseSttRec with lat := 0x4056C00000000000 } =
      .ok [0x44, 0x45, 0x56, 0x41, 0x4C, 0x56, 0x3B, 0x32, 0x30, 0x35, 0x30, 0x30, 0x30, 0x30, 0x30,
        0x31, 0x0D] := by decide

theorem test_vectorParams_legal : legalParams vectorParams = true := by decide
theorem test_alv_all_fields_illegal :
    legalParams { vectorParams with alvFields := SttField.all } = false := by decide
theorem test_alv_no_field_illegal :
    legalParams { vectorParams with alvFields := [] } = false := by decide

/-- The table of 95_test_vectors.md section 2.1, its lines 00 and F0. -/
theorem test_crc_table_lines :
    (List.range 16).map (fun i => crcByte 0 (BitVec.ofNat 8 i)) =
      [0x0000, 0x1021, 0x2042, 0x3063, 0x4084, 0x50A5, 0x60C6, 0x70E7, 0x8108, 0x9129, 0xA14A,
       0xB16B, 0xC18C, 0xD1AD, 0xE1CE, 0xF1EF] ∧
    (List.range 16).map (fun i => crcByte 0 (BitVec.ofNat 8 (0xF0 + i))) =
      [0xEF1F, 0xFF3E, 0xCF5D, 0xDF7C, 0xAF9B, 0xBFBA, 0x8FD9, 0x9FF8, 0x6E17, 0x7E36, 0x4E55,
       0x5E74, 0x2E93, 0x3EB2, 0x0ED1, 0x1EF0] := by decide

/-! ### Witnesses: a state and operands that meet the hypotheses of each statement that has some -/

/-- A valid identity of 15 digits (95_test_vectors.md section 2.2). -/
def validId : Bytes :=
  [0x33, 0x35, 0x32, 0x38, 0x31, 0x32, 0x31, 0x39, 0x32, 0x30, 0x30, 0x38, 0x39, 0x36, 0x31]

theorem witness_BlockWaitsForCommand : State.reset.command = none := rfl
theorem witness_StepRunsDecodedCommand : decode [0x40] = .ok .serialRead := by decide
theorem witness_StepAnswersDecodingErrors_unknown : decode [0x00] = .error .unknownCommand := by
  decide
theorem witness_StepAnswersDecodingErrors_malformed :
    decode [0x40, 0x00] = .error .malformedCommand := by decide
theorem witness_IllegalOpcodesAreUnknown_lowest : (0x00 : Byte).toNat ≤ 0x0F := by decide
theorem witness_IllegalOpcodesAreUnknown_highest : 0x54 ≤ (0xFF : Byte).toNat := by decide
theorem witness_OverlappingCommandsHaveNoStep_pending :
    (State.holding 1 [0x40]).command ≠ none ∨ (State.holding 1 [0x40]).response ≠ none := by
  decide
theorem witness_OverlappingCommandsHaveNoStep_unread :
    (State.answered 1 [0x08, 0x00, 0x00]).command ≠ none ∨
      (State.answered 1 [0x08, 0x00, 0x00]).response ≠ none := by decide
theorem witness_FailedCommandLeavesNoTrace :
    transact (State.idle 7) [0x41, 0x00] = some ([0x08, 0x00, 0x00], State.idle 7) ∧
      ([0x08, 0x00, 0x00] : Bytes).getD 0 0 ≠ 0 := by decide
theorem witness_StepKeepsSafe :
    (State.holding 1 [0x40]).safe = true ∧
      step (State.holding 1 [0x40]) = .next (State.answered 1 [0x00, 0x00, 0x02, 0x00, 0x01]) :=
  ⟨rfl, rfl⟩
theorem witness_HostKeepsSafe :
    (State.idle 1).safe = true ∧ (State.idle 1).deliver [0x40] = some (State.holding 1 [0x40]) ∧
      (State.answered 1 [0x08, 0x00, 0x00]).safe = true ∧
      (State.answered 1 [0x08, 0x00, 0x00]).takeResponse =
        some ([0x08, 0x00, 0x00], State.idle 1) := by decide
theorem witness_DecodeReadsEncoded : Instr.wellFormed (.buildStt baseSttRec) = true := by decide
theorem witness_EncodeRestoresDecoded :
    decode [0x22, 0xFE, 0x98, 0x31] = .ok (.encCourseStatus 0xFE98 0x31) := by decide
theorem witness_WrongLengthIsMalformed :
    decode [0x42, 0xFF, 0xFE] = .ok (.serialLoad 0xFFFE) ∧ ([0x00] : Bytes) ≠ [] ∧
      0 < 1 ∧ 2 < ([0x42, 0xFF, 0xFE] : Bytes).length := by decide
theorem witness_ReservedValuesAreMalformed :
    reservedBitsClear 0x02 = false ∧
      reservedBitsClear ((List.replicate 27 (0x00 : Byte) ++ [0x80]).getD 27 0) = false ∧
      0x07 ≤ (0x07 : Byte).toNat ∧ 10 < (11 : Byte).toNat ∧ 9 < (10 : Byte).toNat := by decide
theorem witness_LocRecFieldsAtTheirOffsets :
    (List.replicate 39 (0x00 : Byte)).length = 39 ∧
      reservedBitsClear ((List.replicate 39 (0x00 : Byte)).getD 27 0) = true := by decide
theorem witness_Crc16Command_encoded : ([0x41] : Bytes).length ≤ 65535 := by decide
theorem witness_Crc16Command_malformed (data : Bytes) (_ : data.length ≤ 65535) :
    ([0x00] : Bytes) ≠ be 2 data.length ++ data := by
  intro h
  have := congrArg List.length h
  simp at this
  omega
theorem witness_CrcLaws : ([0x01, 0x02] : Bytes).length = ([0x03, 0x04] : Bytes).length := rfl
theorem witness_EncBcdRoundTrip :
    (validId.length = 15 ∨ validId.length = 16) ∧ AllDigits validId := by
  unfold AllDigits
  decide
theorem witness_EncBcdRoundTrip_sixteen :
    ((0x30 :: validId).length = 15 ∨ (0x30 :: validId).length = 16) ∧
      AllDigits (0x30 :: validId) := by
  unfold AllDigits
  decide
theorem witness_InvalidIdentityRefused_short :
    ¬ ((validId.tail.length = 15 ∨ validId.tail.length = 16) ∧ AllDigits validId.tail) := by
  unfold AllDigits
  decide
theorem witness_InvalidIdentityRefused_letter :
    ¬ (((0x41 :: validId).length = 15 ∨ (0x41 :: validId).length = 16) ∧
      AllDigits (0x41 :: validId)) := by
  unfold AllDigits
  decide
theorem witness_RheRoundsToNearestEven : 0 < 2 := by decide
theorem witness_Binary64ExactValue_subnormal : f64Finite 0x8000000000000001 = true := by decide
theorem witness_Binary64ExactValue_largest : f64Finite 0x7FEFFFFFFFFFFFFF = true := by decide
/-- 180 degrees, the upper limit. -/
theorem witness_WithinLimit_180 : WithinLimit 0x4066800000000000 180 := by
  simpa using (withinLimit_iff 0x4066800000000000 180).2 (by decide)
/-- The next binary64 above 180. -/
theorem witness_not_WithinLimit_180 : ¬ WithinLimit 0x4066800000000001 180 := by
  have h := (withinLimit_iff 0x4066800000000001 180).not.2 (by decide)
  simpa using h
theorem witness_not_WithinLimit_nan : ¬ WithinLimit 0x7FF8000000000000 180 := by
  have h := (withinLimit_iff 0x7FF8000000000000 180).not.2 (by decide)
  simpa using h
theorem witness_CourseStatusPacksCourse :
    reservedBitsClear 0x31 = true ∧ reservedBitsClear 0x40 = false := by decide
theorem witness_BuildFrameCommand :
    (List.replicate 250 (0 : Byte)).length ≤ 250 ∧ 250 < (List.replicate 251 (0 : Byte)).length := by
  rw [List.length_replicate, List.length_replicate]
  decide
theorem witness_BuildLocationCommand :
    reservedBitsClear { baseLocRec with lat := 0x4056800000000000 }.flags = true ∧
      WithinLimit { baseLocRec with lat := 0x4056800000000000 }.lat 90 ∧
      WithinLimit { baseLocRec with lat := 0x4056800000000000 }.lon 180 := by
  refine ⟨by decide, ?_, ?_⟩
  · simpa using (withinLimit_iff 0x4056800000000000 90).2 (by decide)
  · simpa [baseLocRec] using (withinLimit_iff 0xC045F79DB22D0E56 180).2 (by decide)
theorem witness_BuildLocationErrors_reserved :
    reservedBitsClear { baseLocRec with flags := 0x33 }.flags = false := by decide
/-- Latitude 90.5 (95_test_vectors.md section 2.6). -/
theorem witness_BuildLocationErrors_range :
    reservedBitsClear { baseLocRec with lat := 0x4056A00000000000 }.flags = true ∧
      ¬ (WithinLimit { baseLocRec with lat := 0x4056A00000000000 }.lat 90 ∧
        WithinLimit { baseLocRec with lat := 0x4056A00000000000 }.lon 180) := by
  refine ⟨by decide, fun h => ?_⟩
  have h' := (withinLimit_iff 0x4056A00000000000 90).not.2 (by decide)
  exact h' (by simpa using h.1)
theorem witness_SerialLoadCommand : ([0x05] : Bytes).length ≠ 2 := by decide
theorem witness_SerialIncrementLaw : 0 < 3 := by decide
theorem witness_OnlyTwoCommandsWriteSerial :
    step (State.holding 65535 [0x41]) =
        .next (State.answered 0 [0x00, 0x00, 0x02, 0xFF, 0xFF]) ∧
      (State.answered 0 [0x00, 0x00, 0x02, 0xFF, 0xFF]).serial ≠
        (State.holding 65535 [0x41]).serial := ⟨rfl, by decide⟩
theorem witness_ResponsesIgnoreState :
    ([0x42, 0x00, 0x00] : Bytes) ≠ [0x40] ∧ ([0x42, 0x00, 0x00] : Bytes) ≠ [0x41] := by decide
theorem witness_StrField_legal : LegalText [0x20, 0x7E] ∧ ([0x20, 0x7E] : Bytes).length ≤ 255 := by
  unfold LegalText
  decide
theorem witness_StrField_illegal : ¬ LegalText [0x61, 0x3B] ∧ ¬ LegalText [0x7F] := by
  unfold LegalText
  decide
theorem witness_UdecField_plain : (0 : Byte).toNat ≤ 10 ∧ (0 : Byte).toNat = 0 := by decide
theorem witness_UdecField_fits :
    (5 : Byte).toNat ≤ 10 ∧ 0 < (5 : Byte).toNat ∧
      (99999 : Word32).toNat < 10 ^ (5 : Byte).toNat := by decide
theorem witness_UdecField_too_wide :
    (5 : Byte).toNat ≤ 10 ∧ 0 < (5 : Byte).toNat ∧
      10 ^ (5 : Byte).toNat ≤ (100000 : Word32).toNat := by decide
/-- 999999999.5, just below the bound (95_test_vectors.md section 2.9). -/
theorem witness_SfixField_inRange :
    (9 : Byte).toNat ≤ 9 ∧ SfixInRange 0x41CDCD64FFC00000 :=
  ⟨by decide, (sfixInRange_iff _).2 (by decide)⟩
/-- 10 to the 9, the first value refused (95_test_vectors.md section 2.9). -/
theorem witness_SfixField_outOfRange : ¬ SfixInRange 0x41CDCD6500000000 :=
  (sfixInRange_iff _).not.2 (by decide)
/-- -0.05 with one fraction digit (95_test_vectors.md section 2.9). -/
theorem witness_SfixHasNoNegativeZero :
    fmtSfix 1 0xBFA999999999999A = .ok [0x2D, 0x30, 0x2E, 0x31] ∧
      ([0x2D, 0x30, 0x2E, 0x31] : Bytes).head? = some 0x2D := by decide
theorem witness_DateAndTimeFields :
    ((9999 : Word16).toNat ≤ 9999 ∧ (99 : Byte).toNat ≤ 99 ∧ (99 : Byte).toNat ≤ 99) ∧
      ¬ ((10000 : Word16).toNat ≤ 9999 ∧ (1 : Byte).toNat ≤ 99 ∧ (1 : Byte).toNat ≤ 99) ∧
      ¬ ((100 : Byte).toNat ≤ 99 ∧ (0 : Byte).toNat ≤ 99 ∧ (0 : Byte).toNat ≤ 99) := by decide
theorem witness_TextRecordCommand_legal :
    ([0x54] : Bytes) ≠ [] ∧ LegalText [0x54] ∧ (∀ f ∈ ([[0x61], []] : List Bytes), LegalText f) ∧
      (([0x54] : Bytes) ++ ([[0x61], []] : List Bytes).flatMap (fun f => 0x3B :: f) ++
        [0x0D]).length ≤ 65535 := by
  unfold LegalText
  decide
theorem witness_TextRecordCommand_illegal :
    ([0x54] : Bytes) ≠ [] ∧
      ¬ (LegalText [0x54] ∧ ∀ f ∈ ([[0x0D]] : List Bytes), LegalText f) := by
  unfold LegalText
  decide
/-- 256 legal fields of 255 bytes: with a tag and the delimiters the record has 65538 bytes. -/
theorem witness_TextRecordCommand_overflow :
    let fields := List.replicate 256 (List.replicate 255 (0x41 : Byte))
    ([0x54] : Bytes) ≠ [] ∧ LegalText [0x54] ∧ (∀ f ∈ fields, LegalText f) ∧
      65535 < (([0x54] : Bytes) ++ fields.flatMap (fun f => 0x3B :: f) ++ [0x0D]).length := by
  refine ⟨by decide, by unfold LegalText; decide, ?_, by decide +kernel⟩
  intro f hf b hb
  rw [List.eq_of_mem_replicate hf] at hb
  rw [List.eq_of_mem_replicate hb]
  decide
theorem witness_RecordSplitsIntoItsFields :
    record [0x54] [[0x61], []] = .ok [0x54, 0x3B, 0x61, 0x3B, 0x0D] := by decide

/-- Every field of the base record is in its range. -/
theorem base_in_range (k : SttField) : SttInRange baseSttRec k := by
  have lat := (withinLimit_iff 0xC02DD9F559B3D07D 90).2 (by decide)
  have lon := (withinLimit_iff 0xC045F79DB22D0E56 180).2 (by decide)
  cases k with
  | deviceId => unfold SttInRange LegalText; decide
  | firmware => unfold SttInRange LegalText; decide
  | date => unfold SttInRange; decide
  | time => unfold SttInRange; decide
  | odometer => unfold SttInRange; decide
  | latitude => simpa [SttInRange, baseSttRec] using lat
  | longitude => simpa [SttInRange, baseSttRec] using lon
  | speed => exact (sfixInRange_iff _).2 (by decide)
  | course => exact (sfixInRange_iff _).2 (by decide)
  | satellites => trivial
  | fixFlag => unfold SttInRange; decide
  | ignitionFlag => unfold SttInRange; decide
  | battery => exact (sfixInRange_iff _).2 (by decide)
  | signal => trivial
  | ioStatus => unfold SttInRange LegalText; decide
  | eventCode => trivial

theorem witness_BuildSttCommand :
    baseSttRec.wellFormed = true ∧ ∀ k : SttField, SttInRange baseSttRec k :=
  ⟨by decide, base_in_range⟩
theorem witness_BuildAlvCommand :
    baseSttRec.wellFormed = true ∧
      ∀ k ∈ Config.params.alvFields, SttInRange baseSttRec k :=
  ⟨by decide, fun k _ => base_in_range k⟩
/-- The base record with an odometer over five digits: field 5 is the first bad one. -/
theorem witness_SttReportsFirstBadField :
    (∀ j ∈ ([.deviceId, .firmware, .date, .time] : List SttField),
      SttInRange { baseSttRec with odometer := 100000 } j) ∧
    ¬ SttInRange { baseSttRec with odometer := 100000 } .odometer ∧
    SttField.all = [.deviceId, .firmware, .date, .time] ++ .odometer ::
      [.latitude, .longitude, .speed, .course, .satellites, .fixFlag, .ignitionFlag, .battery,
       .signal, .ioStatus, .eventCode] := by
  refine ⟨?_, by unfold SttInRange; decide, rfl⟩
  intro j hj
  simp only [List.mem_cons, List.not_mem_nil, or_false] at hj
  rcases hj with rfl | rfl | rfl | rfl
  · exact base_in_range .deviceId
  · exact base_in_range .firmware
  · exact base_in_range .date
  · exact base_in_range .time
/-- Latitude 91 is not listed under the vectors' parameters (95_test_vectors.md section 2.11). -/
theorem witness_AlvChecksListedFieldsOnly_unlisted :
    ∀ k ∈ vectorParams.alvFields, sttFormat vectorParams baseSttRec k =
      sttFormat vectorParams { baseSttRec with lat := 0x4056C00000000000 } k := by
  decide
theorem witness_AlvChecksListedFieldsOnly_error :
    vectorParams.alvFields = [] ++ .deviceId :: [] ∧
      ¬ SttInRange { baseSttRec with dev := [0x3B] } .deviceId := by
  refine ⟨rfl, ?_⟩
  unfold SttInRange LegalText
  decide

end Sys2Proof.Tests
end

section
/-! PROOF. The statements about 00_scope.md: rounding (R12), the value of a binary64 pattern (R12),
the decimal spelling (R13) and the legal build-time parameters (R8). The facts about the model's
functions come first, in the order of its definitions; the settling theorems stand at the end. -/

namespace Sys2Proof

/-! ### The fields of the status record (44_text_frame.md rule R222) -/

theorem SttField.mem_all (f : SttField) : f ∈ SttField.all := by
  cases f <;> decide

theorem SttField.all_rises : SttField.all.Pairwise (·.number < ·.number) := by
  decide

theorem SttField.number_bounds (f : SttField) : 1 ≤ f.number ∧ f.number ≤ 16 := by
  cases f <;> decide

theorem SttField.number_injective : Function.Injective SttField.number := by
  have hnodup : (SttField.all.map SttField.number).Nodup := by decide
  exact fun f g h => List.inj_on_of_nodup_map hnodup f.mem_all g.mem_all h

/-- Every bit position of a 16-bit mask is that of a field. -/
theorem SttField.exists_number_eq {i : ℕ} (hi : i < 16) : ∃ f : SttField, f.number - 1 = i := by
  have hall : ∀ i < 16, ∃ f ∈ SttField.all, f.number - 1 = i := by decide
  obtain ⟨f, -, hf⟩ := hall i hi
  exact ⟨f, hf⟩

end Sys2Proof

namespace Sys2Proof.Machine

/-! ### Rounding to nearest even (00_scope.md rule R12) -/

/-- Everything `rhe` can do, by the remainder of the floored division. -/
theorem rhe_cases (num : ℤ) (den : ℕ) :
    (2 * (num % den) < den ∧ rhe num den = num / den) ∨
    (den < 2 * (num % den) ∧ rhe num den = num / den + 1) ∨
    (2 * (num % den) = den ∧ Even (num / den) ∧ rhe num den = num / den) ∨
    (2 * (num % den) = den ∧ ¬ Even (num / den) ∧ rhe num den = num / den + 1) := by
  simp only [rhe, Int.even_iff]
  split_ifs <;> omega

/-- Nearest to a quotient and even on a tie, said without division. -/
theorem isNearestEven_div_iff {num n : ℤ} {den : ℕ} (hden : 0 < den) :
    IsNearestEven ((num : ℚ) / den) n ↔
      2 * |num - n * den| ≤ den ∧ (2 * |num - n * den| = den → Even n) := by
  have hpos : (0 : ℚ) < den := by exact_mod_cast hden
  have habs : |(num : ℚ) / den - n| = ((|num - n * den| : ℤ) : ℚ) / den := by
    rw [div_sub' hpos.ne', abs_div, abs_of_pos hpos]
    push_cast
    rw [mul_comm (den : ℚ)]
  rw [IsNearestEven, habs, div_le_div_iff₀ hpos two_pos, div_eq_div_iff hpos.ne' two_ne_zero,
    one_mul, mul_comm]
  norm_cast

theorem rhe_isNearestEven (num : ℤ) {den : ℕ} (hden : 0 < den) :
    IsNearestEven ((num : ℚ) / den) (rhe num den) := by
  have hd : (den : ℤ) ≠ 0 := by omega
  have hlo := Int.emod_nonneg num hd
  have hhi := Int.emod_lt_of_pos num (by omega : (0 : ℤ) < den)
  have hfloor : num - num / den * den = num % den := by linarith [Int.emod_def num den]
  have hceil : num - (num / den + 1) * den = num % den - den := by linarith
  rw [isNearestEven_div_iff hden]
  obtain ⟨hr, hq⟩ | ⟨hr, hq⟩ | ⟨hr, heven, hq⟩ | ⟨hr, hodd, hq⟩ := rhe_cases num den <;> rw [hq]
  · rw [hfloor, abs_of_nonneg hlo]
    omega
  · rw [hceil, abs_of_neg (by omega)]
    omega
  · rw [hfloor, abs_of_nonneg hlo]
    exact ⟨hr.le, fun _ => heven⟩
  · rw [hceil, abs_of_neg (by omega)]
    exact ⟨by omega, fun _ => Int.even_add_one.mpr hodd⟩

/-! ### Decimal spelling (00_scope.md rule R13) -/

theorem digitByte_toNat {d : ℕ} (h : d < 10) : (digitByte d).toNat = 0x30 + d := by
  rw [digitByte, BitVec.toNat_ofNat]
  omega

theorem allDigits_digitByte {d : ℕ} (h : d < 10) : AllDigits [digitByte d] := by
  simp only [AllDigits, List.mem_singleton, forall_eq, digitByte_toNat h]
  omega

theorem allDigits_append {s t : Bytes} : AllDigits (s ++ t) ↔ AllDigits s ∧ AllDigits t :=
  List.forall_mem_append

theorem decimalValue_digitByte {d : ℕ} (h : d < 10) : decimalValue [digitByte d] = d := by
  simp [decimalValue, digitByte_toNat h]

theorem decimalValue_append_digitByte (s : Bytes) {d : ℕ} (h : d < 10) :
    decimalValue (s ++ [digitByte d]) = decimalValue s * 10 + d := by
  simp [decimalValue, digitByte_toNat h]

/-- Induction along the digits of a number: one digit, or one more digit after `v / 10`. -/
theorem dec_induction {motive : ℕ → Prop} (digit : ∀ v < 10, motive v)
    (more : ∀ v, 10 ≤ v → motive (v / 10) → motive v) (v : ℕ) : motive v := by
  induction v using Nat.strong_induction_on with
  | _ v ih =>
    by_cases h : v < 10
    · exact digit v h
    · exact more v (by omega) (ih (v / 10) (by omega))

theorem dec_allDigits (v : ℕ) : AllDigits (dec v) := by
  induction v using dec_induction with
  | digit v h =>
    rw [dec_of_lt h]
    exact allDigits_digitByte h
  | more v h ih =>
    rw [dec_of_ge h]
    exact allDigits_append.mpr ⟨ih, allDigits_digitByte (Nat.mod_lt v (by omega))⟩

theorem decimalValue_dec (v : ℕ) : decimalValue (dec v) = v := by
  induction v using dec_induction with
  | digit v h => rw [dec_of_lt h, decimalValue_digitByte h]
  | more v h ih =>
    rw [dec_of_ge h, decimalValue_append_digitByte _ (Nat.mod_lt v (by omega)), ih]
    omega

theorem dec_ne_nil (v : ℕ) : dec v ≠ [] := by
  induction v using dec_induction with
  | digit v h => simp [dec_of_lt h]
  | more v h ih => simp [dec_of_ge h]

theorem dec_head?_ne_zero {v : ℕ} (hv : 0 < v) : (dec v).head? ≠ some 0x30 := by
  induction v using dec_induction with
  | digit v h =>
    intro hzero
    rw [dec_of_lt h, List.head?_singleton, Option.some_inj] at hzero
    have hnat : 0x30 + v = 0x30 := by rw [← digitByte_toNat h, hzero]; rfl
    omega
  | more v h ih =>
    rw [dec_of_ge h, List.head?_append_of_ne_nil _ (dec_ne_nil _)]
    exact ih (by omega)

/-! ### The value of a binary64 pattern (00_scope.md rule R12; 30_encoding.md rule R63) -/

theorem f64Exponent_eq_extract (f : F64) : f64Exponent f = (f.extractLsb' 52 11).toNat := by
  rw [f64Exponent, BitVec.extractLsb'_toNat, Nat.shiftRight_eq_div_pow]

theorem f64Fraction_eq_extract (f : F64) : f64Fraction f = (f.extractLsb' 0 52).toNat := by
  rw [f64Fraction, BitVec.extractLsb'_toNat, Nat.shiftRight_zero]

theorem f64Finite_iff (f : F64) : f64Finite f = true ↔ f64Exponent f ≠ 0x7FF := by
  simp [f64Finite]

theorem exactQ_eq_sign_mul (f : F64) :
    exactQ f = (if f.getLsbD 63 then -1 else 1) * ((f64Magnitude f : ℚ) / f64Den f) := by
  rw [exactQ, f64Num, f64Negative]
  split_ifs <;> simp [neg_div]

/-- The truncated powers above and below the fraction point make one signed power of two. -/
theorem two_pow_sub_div (a b : ℕ) :
    (2 : ℚ) ^ (a - b) / 2 ^ (b - a) = (2 : ℚ) ^ ((a : ℤ) - b) := by
  rw [← zpow_natCast, ← zpow_natCast, ← zpow_sub₀ two_ne_zero]
  congr 1
  omega

theorem f64Magnitude_div_den_subnormal {f : F64} (h : f64Exponent f = 0) :
    (f64Magnitude f : ℚ) / f64Den f = (f64Fraction f : ℚ) / 2 ^ 52 * (2 : ℚ) ^ (-1022 : ℤ) := by
  have hden : (f64Den f : ℚ) = 2 ^ 52 * 2 ^ 1022 := by
    rw [f64Den, h, show 1075 - max 1 0 = 52 + 1022 from rfl, pow_add, Nat.cast_mul, Nat.cast_pow,
      Nat.cast_pow, Nat.cast_ofNat]
  rw [f64Magnitude, if_pos h, hden, zpow_neg, zpow_ofNat, div_mul_eq_div_div,
    div_eq_mul_inv _ (2 ^ 1022)]

theorem f64Magnitude_div_den_normal {f : F64} (h : f64Exponent f ≠ 0) :
    (f64Magnitude f : ℚ) / f64Den f =
      (1 + (f64Fraction f : ℚ) / 2 ^ 52) * (2 : ℚ) ^ ((f64Exponent f : ℤ) - 1023) := by
  have hpow : (2 : ℚ) ^ ((f64Exponent f : ℤ) - 1023) =
      2 ^ 52 * (2 : ℚ) ^ ((f64Exponent f : ℤ) - (1075 : ℕ)) := by
    rw [← zpow_natCast, ← zpow_add₀ two_ne_zero]
    congr 1
    omega
  rw [f64Magnitude, if_neg h, f64Den, max_eq_right (by omega), hpow, ← two_pow_sub_div]
  push_cast
  ring

/-! ### Legal tags (44_text_frame.md rules R200, R225) -/

theorem textByteNumber_toNat (k : Fin 94) :
    (textByteNumber k).toNat = if k.val < 27 then 0x20 + k.val else 0x21 + k.val := by
  rw [textByteNumber]
  split_ifs <;> rw [BitVec.toNat_ofNat] <;> omega

theorem legalTextByte_iff (b : Byte) :
    legalTextByte b = true ↔ 0x20 ≤ b.toNat ∧ b.toNat ≤ 0x7E ∧ b.toNat ≠ 0x3B := by
  rw [legalTextByte]
  simp only [Bool.and_eq_true, decide_eq_true_eq, bne_iff_ne, ne_eq, ← BitVec.toNat_inj, and_assoc]
  rfl

/-- The 94 numbers name exactly the legal text bytes. -/
theorem legalTextByte_iff_number (b : Byte) :
    legalTextByte b = true ↔ ∃ k, textByteNumber k = b := by
  simp only [legalTextByte_iff, ← BitVec.toNat_inj, textByteNumber_toNat]
  constructor
  · rintro ⟨hlo, hhi, hdelim⟩
    by_cases h : b.toNat < 0x3B
    · exact ⟨⟨b.toNat - 0x20, by omega⟩, by simp only; split_ifs <;> omega⟩
    · exact ⟨⟨b.toNat - 0x21, by omega⟩, by simp only; split_ifs <;> omega⟩
  · rintro ⟨k, hk⟩
    split_ifs at hk <;> omega

@[simp] theorem textOf_length (n : ℕ) (number : ℕ → Fin 94) : (textOf n number).length = n := by
  simp [textOf]

theorem textOf_legal (n : ℕ) (number : ℕ → Fin 94) :
    (textOf n number).all legalTextByte = true := by
  simp [textOf, legalTextByte_iff_number]

/-- Every legal text is `textOf` the numbers of its bytes. -/
theorem exists_textOf_of_legal {s : Bytes} (h : s.all legalTextByte = true) :
    ∃ number, s = textOf s.length number := by
  have hbyte : ∀ i, ∃ k, ∀ hi : i < s.length, textByteNumber k = s[i] := by
    intro i
    by_cases hi : i < s.length
    · have hlegal := List.all_eq_true.mp h s[i] (s.getElem_mem hi)
      obtain ⟨k, hk⟩ := (legalTextByte_iff_number s[i]).mp hlegal
      exact ⟨k, fun _ => hk⟩
    · exact ⟨0, fun hi' => absurd hi' hi⟩
  choose number hnumber using hbyte
  exact ⟨number, List.ext_getElem (by simp) fun i hi _ => by simp [textOf, hnumber i hi]⟩

theorem legalTag_iff (ending tag : Bytes) :
    legalTag ending tag = true ↔
      1 ≤ tag.length ∧ tag.length ≤ 255 ∧ tag.all legalTextByte = true ∧ ending <:+ tag := by
  simp [legalTag, and_assoc]

/-- The legal tags are a legal text of at most 252 bytes before a three-byte ending. -/
theorem legalTag_iff_textOf {ending : Bytes} (hlength : ending.length = 3)
    (hlegal : ending.all legalTextByte = true) (tag : Bytes) :
    legalTag ending tag = true ↔
      ∃ (n : Fin 253) (number : ℕ → Fin 94), tag = textOf n.val number ++ ending := by
  rw [legalTag_iff]
  constructor
  · rintro ⟨-, hmax, htext, front, rfl⟩
    rw [List.all_append, Bool.and_eq_true] at htext
    rw [List.length_append] at hmax
    obtain ⟨number, hfront⟩ := exists_textOf_of_legal htext.1
    exact ⟨⟨front.length, by omega⟩, number, by rw [← hfront]⟩
  · rintro ⟨n, number, rfl⟩
    rw [List.length_append, textOf_length, List.all_append, textOf_legal, hlegal]
    exact ⟨by omega, by omega, rfl, List.suffix_append _ _⟩

/-! ### Field lists and masks (44_text_frame.md rule R226) -/

theorem strictlyIncreasing_iff (l : List SttField) :
    strictlyIncreasing l = true ↔ l.Pairwise (·.number < ·.number) := by
  induction l with
  | nil => simp [strictlyIncreasing]
  | cons f rest ih =>
    cases rest with
    | nil => simp [strictlyIncreasing]
    | cons g rest =>
      rw [strictlyIncreasing, Bool.and_eq_true, ih, decide_eq_true_eq, List.pairwise_cons (a := f)]
      refine and_congr_left fun htail => ⟨fun hfg h hh => ?_, fun hall => hall g (by simp)⟩
      obtain rfl | hrest := List.mem_cons.mp hh
      · exact hfg
      · exact hfg.trans ((List.pairwise_cons.mp htail).1 h hrest)

/-- Two strictly increasing lists of the same fields are the same list. -/
theorem eq_of_rises_of_mem_iff {l m : List SttField} (hl : l.Pairwise (·.number < ·.number))
    (hm : m.Pairwise (·.number < ·.number)) (h : ∀ f, f ∈ l ↔ f ∈ m) : l = m := by
  apply List.map_injective_iff.mpr SttField.number_injective
  refine List.Pairwise.eq_of_mem_iff (List.pairwise_map.mpr hl) (List.pairwise_map.mpr hm) ?_
  simp [h]

/-- The mask of a field list: bit `number - 1` of each field is set. -/
def maskOfFields (l : List SttField) : ℕ :=
  Nat.ofBits fun i : Fin 16 => l.any fun f => f.number - 1 == i.val

theorem maskOfFields_lt (l : List SttField) : maskOfFields l < 2 ^ 16 := Nat.ofBits_lt_two_pow _

theorem maskOfFields_testBit (l : List SttField) (f : SttField) :
    (maskOfFields l).testBit (f.number - 1) = true ↔ f ∈ l := by
  have hsame : ∀ g : SttField, g.number - 1 = f.number - 1 ↔ g = f := by
    intro g
    rw [← SttField.number_injective.eq_iff]
    have := f.number_bounds
    have := g.number_bounds
    omega
  have hbound : f.number - 1 < 16 := by
    have := f.number_bounds
    omega
  rw [maskOfFields, Nat.testBit_ofBits_lt _ _ hbound]
  simp [hsame]

theorem mem_fieldsOfMask (mask : ℕ) (f : SttField) :
    f ∈ fieldsOfMask mask ↔ mask.testBit (f.number - 1) = true := by
  simp [fieldsOfMask, SttField.mem_all]

theorem fieldsOfMask_sublist (mask : ℕ) : (fieldsOfMask mask).Sublist SttField.all :=
  List.filter_sublist

theorem fieldsOfMask_rises (mask : ℕ) : (fieldsOfMask mask).Pairwise (·.number < ·.number) :=
  SttField.all_rises.sublist (fieldsOfMask_sublist mask)

theorem fieldsOfMask_maskOfFields {l : List SttField} (h : l.Pairwise (·.number < ·.number)) :
    fieldsOfMask (maskOfFields l) = l :=
  eq_of_rises_of_mem_iff (fieldsOfMask_rises _) h fun f => by
    rw [mem_fieldsOfMask, maskOfFields_testBit]

theorem maskOfFields_fieldsOfMask {mask : ℕ} (h : mask < 2 ^ 16) :
    maskOfFields (fieldsOfMask mask) = mask := by
  refine Nat.eq_of_testBit_eq fun i => ?_
  by_cases hi : i < 16
  · obtain ⟨f, rfl⟩ := SttField.exists_number_eq hi
    rw [Bool.eq_iff_iff, maskOfFields_testBit, mem_fieldsOfMask]
  · have hwide : 2 ^ 16 ≤ 2 ^ i := Nat.pow_le_pow_right (by omega) (by omega)
    rw [Nat.testBit_lt_two_pow (h.trans_le hwide),
      Nat.testBit_lt_two_pow ((maskOfFields_lt _).trans_le hwide)]

/-- Of the 16-bit masks, only the empty one names no field. -/
theorem fieldsOfMask_length_eq_zero_iff {mask : ℕ} (h : mask < 2 ^ 16) :
    (fieldsOfMask mask).length = 0 ↔ mask = 0 := by
  constructor
  · intro hlength
    rw [← maskOfFields_fieldsOfMask h, List.length_eq_zero_iff.mp hlength]
    decide
  · rintro rfl
    decide

/-- Of the 16-bit masks, only the full one names all 16 fields. -/
theorem fieldsOfMask_length_eq_sixteen_iff {mask : ℕ} (h : mask < 2 ^ 16) :
    (fieldsOfMask mask).length = 16 ↔ mask = 65535 := by
  constructor
  · intro hlength
    rw [← maskOfFields_fieldsOfMask h, (fieldsOfMask_sublist mask).eq_of_length hlength]
    decide
  · rintro rfl
    decide

/-- The legal ALV_FIELDS are the fields of the masks 1 to 65534. -/
theorem legalFields_iff_mask (l : List SttField) :
    (1 ≤ l.length ∧ l.length ≤ 15 ∧ strictlyIncreasing l = true) ↔
      ∃ choice : Fin 65534, l = fieldsOfMask (choice.val + 1) := by
  rw [strictlyIncreasing_iff]
  constructor
  · rintro ⟨hmin, hmax, hrises⟩
    have hmask := fieldsOfMask_maskOfFields hrises
    have hlt := maskOfFields_lt l
    have hzero := fieldsOfMask_length_eq_zero_iff hlt
    have hfull := fieldsOfMask_length_eq_sixteen_iff hlt
    rw [hmask] at hzero hfull
    refine ⟨⟨maskOfFields l - 1, by omega⟩, ?_⟩
    rw [Nat.sub_add_cancel (by omega), hmask]
  · rintro ⟨choice, rfl⟩
    have hlt : choice.val + 1 < 2 ^ 16 := by omega
    have hzero := fieldsOfMask_length_eq_zero_iff hlt
    have hfull := fieldsOfMask_length_eq_sixteen_iff hlt
    have hmax : (fieldsOfMask (choice.val + 1)).length ≤ 16 :=
      (fieldsOfMask_sublist _).length_le
    exact ⟨by omega, by omega, fieldsOfMask_rises _⟩

/-! ### Legal parameters (00_scope.md rule R8) -/

theorem legalParams_iff (P : Params) :
    legalParams P = true ↔
      (P.cellIdWidth = 3 ∨ P.cellIdWidth = 4) ∧
      P.pLatLon ≤ 9 ∧ P.pSpeed ≤ 9 ∧ P.pCourse ≤ 9 ∧ P.pBatt ≤ 9 ∧
      legalTag tagSttEnding P.tagStt = true ∧ legalTag tagAlvEnding P.tagAlv = true ∧
      (1 ≤ P.alvFields.length ∧ P.alvFields.length ≤ 15 ∧
        strictlyIncreasing P.alvFields = true) := by
  simp [legalParams, and_assoc]

theorem legalTag_stt_iff (tag : Bytes) : legalTag tagSttEnding tag = true ↔
    ∃ (n : Fin 253) (number : ℕ → Fin 94), tag = textOf n.val number ++ tagSttEnding :=
  legalTag_iff_textOf rfl (by decide) tag

theorem legalTag_alv_iff (tag : Bytes) : legalTag tagAlvEnding tag = true ↔
    ∃ (n : Fin 253) (number : ℕ → Fin 94), tag = textOf n.val number ++ tagAlvEnding :=
  legalTag_iff_textOf rfl (by decide) tag

theorem legalParams_ofChoices (wideCell : Bool) (pLatLon pSpeed pCourse pBatt : Fin 10)
    (sttLength : Fin 253) (sttByte : ℕ → Fin 94) (alvLength : Fin 253) (alvByte : ℕ → Fin 94)
    (alvChoice : Fin 65534) :
    legalParams (Params.ofChoices wideCell pLatLon pSpeed pCourse pBatt sttLength sttByte alvLength
      alvByte alvChoice) = true := by
  rw [legalParams_iff, legalTag_stt_iff, legalTag_alv_iff, legalFields_iff_mask]
  exact ⟨by cases wideCell <;> simp [Params.ofChoices], Nat.le_of_lt_succ pLatLon.isLt,
    Nat.le_of_lt_succ pSpeed.isLt, Nat.le_of_lt_succ pCourse.isLt, Nat.le_of_lt_succ pBatt.isLt,
    ⟨sttLength, sttByte, rfl⟩, ⟨alvLength, alvByte, rfl⟩, ⟨alvChoice, rfl⟩⟩

/-- Legal parameters are made from a choice: each open value is read off its own parameter. -/
theorem exists_ofChoices_of_legalParams {P : Params} (h : legalParams P = true) :
    ∃ (wideCell : Bool) (pLatLon pSpeed pCourse pBatt : Fin 10)
      (sttLength : Fin 253) (sttByte : ℕ → Fin 94) (alvLength : Fin 253) (alvByte : ℕ → Fin 94)
      (alvChoice : Fin 65534),
      P = Params.ofChoices wideCell pLatLon pSpeed pCourse pBatt sttLength sttByte alvLength
        alvByte alvChoice := by
  rw [legalParams_iff, legalTag_stt_iff, legalTag_alv_iff, legalFields_iff_mask] at h
  obtain ⟨hcell, hlatlon, hspeed, hcourse, hbatt, ⟨sttLength, sttByte, hstt⟩,
    ⟨alvLength, alvByte, halv⟩, ⟨alvChoice, hfields⟩⟩ := h
  have hwide : P.cellIdWidth = if decide (P.cellIdWidth = 4) then 4 else 3 := by
    rcases hcell with hcell | hcell <;> simp [hcell]
  refine ⟨decide (P.cellIdWidth = 4), ⟨P.pLatLon, by omega⟩, ⟨P.pSpeed, by omega⟩,
    ⟨P.pCourse, by omega⟩, ⟨P.pBatt, by omega⟩, sttLength, sttByte, alvLength, alvByte, alvChoice,
    ?_⟩
  rw [Params.ofChoices, ← hwide, ← hstt, ← halv, ← hfields]

end Sys2Proof.Machine

open Sys2Proof Sys2Proof.Machine

/-- Settles O24: the floor and its successor are the only candidates, and the doubled remainder
says which of them is within one half. -/
theorem rheRoundsToNearestEven : Obligations.RheRoundsToNearestEven := by
  intro num den hden
  exact rhe_isNearestEven num hden

/-- Settles O25: the exponent and fraction fields are the extracted bits, and each of the two forms
of the magnitude over the denominator is IEEE 754's. -/
theorem binary64ExactValue : Obligations.Binary64ExactValue := by
  intro f
  have hfield : ∀ e < 2 ^ 11, f.extractLsb' 52 11 = BitVec.ofNat 11 e ↔ f64Exponent f = e := by
    intro e he
    rw [f64Exponent_eq_extract, ← BitVec.toNat_inj, BitVec.toNat_ofNat, Nat.mod_eq_of_lt he]
  refine ⟨(f64Finite_iff f).trans (hfield 0x7FF (by omega)).not.symm, fun _ => ?_⟩
  rw [exactQ_eq_sign_mul, ← f64Exponent_eq_extract, ← f64Fraction_eq_extract]
  congr 1
  split_ifs with hzero
  · exact f64Magnitude_div_den_subnormal ((hfield 0 (by omega)).mp hzero)
  · exact f64Magnitude_div_den_normal ((hfield 0 (by omega)).not.mp hzero)

/-- Settles O45, by induction along the digits (`dec_induction`). -/
theorem decSpellsNumber : Obligations.DecSpellsNumber := by
  intro v
  refine ⟨dec_allDigits v, decimalValue_dec v, ?_, fun hv => ⟨dec_ne_nil v, dec_head?_ne_zero hv⟩⟩
  rintro rfl
  rfl

/-- Settles O59: each parameter's legal values are exactly what its own choice makes (tags:
`legalTag_iff_textOf`; field lists: `legalFields_iff_mask`). -/
theorem paramsAreExactlyTheLegalOnes : Obligations.ParamsAreExactlyTheLegalOnes := by
  refine ⟨legalParams_ofChoices .., fun P => ⟨exists_ofChoices_of_legalParams, ?_⟩⟩
  rintro ⟨wideCell, pLatLon, pSpeed, pCourse, pBatt, sttLength, sttByte, alvLength, alvByte,
    alvChoice, rfl⟩
  exact legalParams_ofChoices ..
end

section
/-! PROOF. The statements about 10_state.md: which commands write SERIAL and which read it (R20,
R21). Both rest on one division of the commands, `exec_reads_operands_only`, and on the bytes of the
three commands that division leaves out. -/

namespace Sys2Proof

/-! ### The opcode of a decoded command (30_encoding.md rules R64, R65) -/

/-- The instruction an opcode is read as is one that is encoded with that opcode. -/
theorem takeCommand_opcode {op : Byte} {bs rest : Bytes} {i : Instr}
    (h : takeCommand op bs = some (i, rest)) : (encode i).head? = some op := by
  unfold takeCommand at h
  split at h
  -- Case `h_k` is row k of the opcode table; the rows stand by how many operands are read.
  case h_9 | h_10 =>
    cases h
    rfl
  case h_1 | h_2 | h_3 | h_8 | h_11 | h_14 | h_15 =>
    obtain ⟨_, _, -, ⟨⟩⟩ := taken_of_bind h
    rfl
  case h_6 | h_12 =>
    obtain ⟨_, _, -, h⟩ := taken_of_bind h
    obtain ⟨_, _, -, ⟨⟩⟩ := taken_of_bind h
    rfl
  case h_5 | h_13 =>
    obtain ⟨_, _, -, h⟩ := taken_of_bind h
    obtain ⟨_, _, -, h⟩ := taken_of_bind h
    obtain ⟨_, _, -, ⟨⟩⟩ := taken_of_bind h
    rfl
  -- The two rows with a `flags` operand refuse its reserved bits (rule R69).
  case h_4 =>
    obtain ⟨_, _, -, h⟩ := taken_of_bind h
    obtain ⟨_, _, -, h⟩ := taken_of_bind h
    obtain ⟨-, ⟨⟩⟩ := Option.ite_none_left_eq_some.mp h
    rfl
  case h_7 =>
    obtain ⟨_, _, -, h⟩ := taken_of_bind h
    obtain ⟨-, ⟨⟩⟩ := Option.ite_none_left_eq_some.mp h
    rfl
  case h_16 => cases h

/-- What decodes to an instruction begins with that instruction's opcode, and its operands are read
to the last byte. -/
theorem decode_ok_opcode {cmd : Bytes} {i : Instr} (h : decode cmd = .ok i) :
    ∃ op operands, cmd = op :: operands ∧ (encode i).head? = some op ∧
      takeCommand op operands = some (i, []) := by
  obtain ⟨op, operands, hcmd, -, htake⟩ := decode_ok h
  exact ⟨op, operands, hcmd, takeCommand_opcode htake, htake⟩

theorem eq_of_decode_serialRead {cmd : Bytes} (h : decode cmd = .ok .serialRead) :
    cmd = [0x40] := by
  obtain ⟨op, operands, rfl, ⟨⟩, ⟨⟩⟩ := decode_ok_opcode h
  rfl

theorem eq_of_decode_serialNext {cmd : Bytes} (h : decode cmd = .ok .serialNext) :
    cmd = [0x41] := by
  obtain ⟨op, operands, rfl, ⟨⟩, ⟨⟩⟩ := decode_ok_opcode h
  rfl

theorem eq_of_decode_serialLoad {cmd : Bytes} {value : Word16}
    (h : decode cmd = .ok (.serialLoad value)) : cmd = 0x42 :: putU16 value := by
  obtain ⟨op, operands, rfl, ⟨⟩, htake⟩ := decode_ok_opcode h
  obtain ⟨v, rest, hv, ⟨⟩⟩ := taken_of_bind htake
  rw [takeU16_some hv, List.append_nil]

end Sys2Proof

namespace Sys2Proof.Machine

/-! ### Commands that do not touch SERIAL (10_state.md rule R21) -/

/-- Every command but the serial counter's three ends with a result that its operands and the
parameters alone determine, and SERIAL keeps its value. -/
theorem exec_reads_operands_only (i : Instr) :
    i = .serialRead ∨ i = .serialNext ∨ (∃ value, i = .serialLoad value) ∨
      ∃ r, ∀ s, exec i s = .next (finishPure s r) := by
  cases i with
  | serialRead => exact .inl rfl
  | serialNext => exact .inr (.inl rfl)
  | serialLoad value => exact .inr (.inr (.inl ⟨value, rfl⟩))
  | crc16 | encBcd | encCoord | encCourseStatus | buildFrame | buildLogin | buildLocation
  | parseFrame | fmtField | textRecord | buildStt | buildAlv =>
    exact .inr (.inr (.inr ⟨_, fun _ => rfl⟩))

/-- Only SERIAL_NEXT and SERIAL_LOAD write SERIAL (10_state.md rule R20). -/
theorem exec_changes_serial {i : Instr} {s t : State} (h : exec i s = .next t)
    (hserial : t.serial ≠ s.serial) : i = .serialNext ∨ ∃ value, i = .serialLoad value := by
  obtain rfl | hnext | hload | ⟨r, hr⟩ := exec_reads_operands_only i
  · cases h
    exact absurd (finishPure_serial s _) hserial
  · exact .inl hnext
  · exact .inr hload
  · rw [hr] at h
    cases h
    exact absurd (finishPure_serial s r) hserial

/-- The response to a given result is the same in every state, and SERIAL keeps its value. -/
theorem finishPure_response_fixed (r : Except CommandError Bytes) :
    ∃ bytes, ∀ s, finishPure s r = State.answered s.serial bytes := by
  cases r with
  | error e => exact ⟨errorResponse e, fun _ => rfl⟩
  | ok result =>
    by_cases h : result.length ≤ resultLimit
    · exact ⟨okResponse result, fun s => finishPure_ok s h⟩
    · exact ⟨errorResponse .lengthOverflow, fun s => by simp [finishPure, finish, h, raiseError]⟩

theorem exec_serialLoad (value : Word16) (s : State) :
    exec (.serialLoad value) s = .next (State.answered value (okResponse [])) :=
  congrArg Host.Outcome.next (finish_ok s (Nat.zero_le _))

/-! ### The step of a delivered command -/

theorem step_holding_of_decode_ok {cmd : Bytes} {i : Instr} (h : decode cmd = .ok i) (n : Word16) :
    step (State.holding n cmd) = exec i (State.holding n cmd) := by
  simp [step, h]

theorem step_holding_of_decode_error {cmd : Bytes} {e : CommandError} (h : decode cmd = .error e)
    (n : Word16) :
    step (State.holding n cmd) = .next (State.answered n (errorResponse e)) := by
  simp [step, h, raiseError]

end Sys2Proof.Machine

open Sys2Proof Sys2Proof.Machine

/-- Settles O43: of all a step can do, only the two commands that write SERIAL change it
(`exec_changes_serial`), and each of them has one spelling. -/
theorem onlyTwoCommandsWriteSerial : Obligations.OnlyTwoCommandsWriteSerial := by
  intro s t hstep hserial
  obtain ⟨-, h⟩ | ⟨cmd, i, hcmd, -, hdecode, h⟩ | ⟨_, e, -, -, -, h⟩ | ⟨_, _, -, -, h⟩ :=
    step_cases s <;> rw [h] at hstep
  · cases hstep
    exact absurd rfl hserial
  · obtain rfl | ⟨value, rfl⟩ := exec_changes_serial hstep hserial
    · exact .inl (eq_of_decode_serialNext hdecode ▸ hcmd)
    · exact .inr ⟨_, _, eq_of_decode_serialLoad hdecode ▸ hcmd⟩
  · cases hstep
    exact absurd (raiseError_serial s e) hserial
  · cases hstep

/-- Settles O44: a decoding error, SERIAL_LOAD and every command outside the serial counter answer
what their bytes determine; what is left decodes to SERIAL_READ or SERIAL_NEXT. -/
theorem responsesIgnoreState : Obligations.ResponsesIgnoreState := by
  intro n n' cmd hread hnext
  cases hdecode : decode cmd with
  | error e =>
    exact ⟨_, n, n', step_holding_of_decode_error hdecode n,
      step_holding_of_decode_error hdecode n'⟩
  | ok i =>
    have hstep := step_holding_of_decode_ok hdecode
    simp only [hstep]
    obtain rfl | rfl | ⟨value, rfl⟩ | ⟨r, hr⟩ := exec_reads_operands_only i
    · exact absurd (eq_of_decode_serialRead hdecode) hread
    · exact absurd (eq_of_decode_serialNext hdecode) hnext
    · exact ⟨_, value, value, exec_serialLoad value _, exec_serialLoad value _⟩
    · obtain ⟨bytes, hbytes⟩ := finishPure_response_fixed r
      exact ⟨bytes, n, n', by rw [hr, hbytes, State.holding_serial],
        by rw [hr, hbytes, State.holding_serial]⟩
end

section
/-! PROOF. The statement about 20_memory.md: commands run strictly one after another (R46). A sequence
is taken apart command by command (`transactAll_cons`) and sequences are joined (`transactAll_append`)
in any state; that every command of a waiting block has an answer is `step_holding`. -/

namespace Sys2Proof.Machine

/-! ### Sequences of transactions (20_memory.md rule R46) -/

@[simp] theorem transactAll_nil (s : State) : transactAll s [] = some ([], s) := rfl

theorem transactAll_cons {s t : State} {cmd bytes : Bytes} (h : transact s cmd = some (bytes, t))
    (cmds : List Bytes) :
    transactAll s (cmd :: cmds) =
      (transactAll t cmds).map fun rest => (bytes :: rest.1, rest.2) := by
  simp only [transactAll, h, Option.map_eq_bind]
  rfl

theorem transactAll_cons_none {s : State} {cmd : Bytes} (h : transact s cmd = none)
    (cmds : List Bytes) : transactAll s (cmd :: cmds) = none := by
  simp [transactAll, h]

theorem transactAll_append (s : State) (cmds cmds' : List Bytes) :
    transactAll s (cmds ++ cmds') =
      (transactAll s cmds).bind fun done =>
        (transactAll done.2 cmds').map fun rest => (done.1 ++ rest.1, rest.2) := by
  induction cmds generalizing s with
  | nil => simp
  | cons cmd cmds ih =>
    cases h : transact s cmd with
    | none => simp [transactAll_cons_none h]
    | some answer =>
      obtain ⟨bytes, t⟩ := answer
      simp [transactAll_cons h, ih, Option.bind_map, Option.map_bind, Function.comp_def]

/-- A waiting block answers every sequence, one response a command, and waits again. -/
theorem exists_transactAll_idle (n : Word16) (cmds : List Bytes) :
    ∃ (responses : List Bytes) (n' : Word16),
      transactAll (State.idle n) cmds = some (responses, State.idle n') ∧
      responses.length = cmds.length := by
  induction cmds generalizing n with
  | nil => exact ⟨[], n, rfl, rfl⟩
  | cons cmd cmds ih =>
    obtain ⟨bytes, n₁, hstep⟩ := step_holding n cmd
    obtain ⟨responses, n₂, hall, hlength⟩ := ih n₁
    refine ⟨bytes :: responses, n₂, ?_, congrArg (· + 1) hlength⟩
    rw [transactAll_cons (transact_of_step hstep), hall, Option.map_some]

end Sys2Proof.Machine

open Sys2Proof Sys2Proof.Machine

/-- Settles O9: the head of a sequence by the step of its command (`step_holding`), a whole sequence
by induction on its commands (`exists_transactAll_idle`), and what follows it by
`transactAll_append`. -/
theorem commandsComposeSequentially : Obligations.CommandsComposeSequentially := by
  refine ⟨fun n => transactAll_nil _, fun n cmd cmds => ?_, fun n cmds => ?_⟩
  · obtain ⟨bytes, n', hstep⟩ := step_holding n cmd
    exact ⟨bytes, n', hstep, transactAll_cons (transact_of_step hstep) cmds⟩
  · obtain ⟨responses, n', hall, hlength⟩ := exists_transactAll_idle n cmds
    refine ⟨responses, n', hall, hlength, fun cmds' => ?_⟩
    rw [transactAll_append, hall, Option.bind_some]
end

section
/-! PROOF. The statements about 30_encoding.md. The writers and readers of operands stand first: the
bytes `encode` writes are what `takeCommand` reads, with whatever follows them left over
(`takeCommand_encode`), and what `takeCommand` reads are those bytes (`takeCommand_some`). The round
trips, the lengths and the reserved values rest on these two; the responses stand after them. -/

namespace Sys2Proof

/-! ### Reserved flag bits (30_encoding.md rule R69) -/

/-- The decoder's mask and the five named bits say the same of a `flags` operand. -/
theorem flagsReserved_eq_not_clear (flags : Byte) :
    flagsReserved flags = !reservedBitsClear flags := by
  revert flags
  decide

theorem flagsReserved_eq_false {flags : Byte} (h : reservedBitsClear flags = true) :
    flagsReserved flags = false := by
  rw [flagsReserved_eq_not_clear, h, Bool.not_true]

theorem flagsReserved_eq_true {flags : Byte} (h : reservedBitsClear flags = false) :
    flagsReserved flags = true := by
  rw [flagsReserved_eq_not_clear, h, Bool.not_false]

theorem reservedBitsClear_of_not_reserved {flags : Byte} (h : ¬ flagsReserved flags = true) :
    reservedBitsClear flags = true := by
  simpa [flagsReserved_eq_not_clear] using h

/-! ### Reading what the writers wrote (30_encoding.md rules R65 to R68) -/

/-- A count operand is read back as the number it was written for. -/
theorem exists_takeU8_count {n : Nat} (h : n ≤ 255) (rest : Bytes) :
    ∃ b : Byte, takeU8 (be 1 n ++ rest) = some (b, rest) ∧ b.toNat = n :=
  ⟨BitVec.ofNat 8 n, by simp [be], by rw [BitVec.toNat_ofNat]; exact Nat.mod_eq_of_lt (by omega)⟩

/-- The operands of a well-formed sub-format are read back after its `fmt` byte. -/
theorem takeFieldFmt_put {f : FieldFmt} (h : f.wellFormed = true) :
    ∃ fmt operands, putFieldFmt f = fmt :: operands ∧
      ∀ rest, takeFieldFmt fmt (operands ++ rest) = some (f, rest) := by
  cases f with
  | str s => exact ⟨0x00, _, rfl, fun rest => bind_taken (takeStr8_put h rest) _⟩
  | udec w v =>
    refine ⟨0x01, _, rfl, fun rest => (bind_taken (takeU8_cons w _) _).trans ?_⟩
    refine (bind_taken (takeU32_put v rest) _).trans (if_neg ?_)
    simpa [FieldFmt.wellFormed] using h
  | sdec v => exact ⟨0x02, _, rfl, fun rest => bind_taken (takeU32_put v rest) _⟩
  | sfix p v =>
    refine ⟨0x03, _, rfl, fun rest => (bind_taken (takeU8_cons p _) _).trans ?_⟩
    refine (bind_taken (takeF64_put v rest) _).trans (if_neg ?_)
    simpa [FieldFmt.wellFormed] using h
  | date8 year month day =>
    refine ⟨0x04, putU16 year ++ [month, day], rfl, fun rest => ?_⟩
    rw [List.append_assoc]
    exact bind_taken (takeU16_put year _) _
  | time6 hour minute second => exact ⟨0x05, _, rfl, fun _ => rfl⟩
  | flag b => exact ⟨0x06, _, rfl, fun _ => rfl⟩

/-- The operands of a well-formed instruction are read back after its opcode, and what follows them
is left over. -/
theorem takeCommand_encode {i : Instr} (h : i.wellFormed = true) :
    ∃ op operands, encode i = op :: operands ∧ opcodeAssigned op = true ∧
      ∀ rest, takeCommand op (operands ++ rest) = some (i, rest) := by
  cases i with
  | crc16 data => exact ⟨0x10, _, rfl, rfl, fun rest => bind_taken (takeStr16_put h rest) _⟩
  | encBcd id => exact ⟨0x20, _, rfl, rfl, fun rest => bind_taken (takeStr8_put h rest) _⟩
  | encCoord deg => exact ⟨0x21, _, rfl, rfl, fun rest => bind_taken (takeF64_put deg rest) _⟩
  | encCourseStatus course flags =>
    refine ⟨0x22, putU16 course ++ [flags], rfl, rfl, fun rest => ?_⟩
    rw [List.append_assoc]
    refine (bind_taken (takeU16_put course _) _).trans ?_
    refine (bind_taken (takeU8_cons flags rest) _).trans (if_neg ?_)
    simp [flagsReserved_eq_false h]
  | buildFrame code payload serial =>
    refine ⟨0x30, code :: (putStr8 payload ++ putU16 serial), rfl, rfl, fun rest => ?_⟩
    rw [List.cons_append, List.append_assoc]
    refine (bind_taken (takeU8_cons code _) _).trans ?_
    refine (bind_taken (takeStr8_put h _) _).trans ?_
    exact bind_taken (takeU16_put serial rest) _
  | buildLogin id serial =>
    refine ⟨0x31, putStr8 id ++ putU16 serial, rfl, rfl, fun rest => ?_⟩
    rw [List.append_assoc]
    refine (bind_taken (takeStr8_put h _) _).trans ?_
    exact bind_taken (takeU16_put serial rest) _
  | buildLocation r =>
    refine ⟨0x32, _, rfl, rfl, fun rest => ?_⟩
    refine (bind_taken (takeLocRec_put r rest) _).trans (if_neg ?_)
    simp [flagsReserved_eq_false h]
  | parseFrame frame => exact ⟨0x38, _, rfl, rfl, fun rest => bind_taken (takeStr16_put h rest) _⟩
  | serialRead => exact ⟨0x40, _, rfl, rfl, fun _ => rfl⟩
  | serialNext => exact ⟨0x41, _, rfl, rfl, fun _ => rfl⟩
  | serialLoad value => exact ⟨0x42, _, rfl, rfl, fun rest => bind_taken (takeU16_put value rest) _⟩
  | fmtField f =>
    obtain ⟨fmt, operands, hput, htake⟩ := takeFieldFmt_put (f := f) h
    refine ⟨0x50, fmt :: operands, congrArg (0x50 :: ·) hput, rfl, fun rest => ?_⟩
    exact (bind_taken (takeU8_cons fmt _) _).trans (bind_taken (htake rest) _)
  | textRecord tag fields =>
    simp only [Instr.wellFormed, Bool.and_eq_true, decide_eq_true_eq, List.all_eq_true] at h
    obtain ⟨⟨htag, hcount⟩, hfields⟩ := h
    refine ⟨0x51, putStr8 tag ++ be 1 fields.length ++ fields.flatMap putStr8, rfl, rfl,
      fun rest => ?_⟩
    rw [List.append_assoc, List.append_assoc]
    obtain ⟨count, hread, hvalue⟩ := exists_takeU8_count hcount (fields.flatMap putStr8 ++ rest)
    refine (bind_taken (takeStr8_put htag _) _).trans ((bind_taken hread _).trans ?_)
    exact bind_taken (hvalue ▸ takeStr8s_put hfields rest) _
  | buildStt r => exact ⟨0x52, _, rfl, rfl, fun rest => bind_taken (takeSttRec_put h rest) _⟩
  | buildAlv r => exact ⟨0x53, _, rfl, rfl, fun rest => bind_taken (takeSttRec_put h rest) _⟩

/-! ### Writing what the readers read (30_encoding.md rules R65 to R69) -/

/-- What is read as a sub-format is well formed and is that sub-format's bytes. -/
theorem takeFieldFmt_some {fmt : Byte} {bs rest : Bytes} {f : FieldFmt}
    (h : takeFieldFmt fmt bs = some (f, rest)) :
    f.wellFormed = true ∧ fmt :: bs = putFieldFmt f ++ rest := by
  unfold takeFieldFmt at h
  split at h
  -- Case `h_k` is row k of the sub-format table, `fmt` k - 1.
  case h_1 =>
    obtain ⟨_, _, hs, ⟨⟩⟩ := taken_of_bind h
    obtain ⟨hfits, rfl⟩ := takeStr8_some hs
    exact ⟨hfits, rfl⟩
  case h_2 =>
    obtain ⟨_, _, hw, h⟩ := taken_of_bind h
    obtain ⟨_, _, hv, h⟩ := taken_of_bind h
    obtain ⟨hwidth, ⟨⟩⟩ := Option.ite_none_left_eq_some.mp h
    rw [takeU8_some hw, takeU32_some hv]
    exact ⟨by simpa [FieldFmt.wellFormed] using hwidth, rfl⟩
  case h_3 =>
    obtain ⟨_, _, hv, ⟨⟩⟩ := taken_of_bind h
    rw [takeU32_some hv]
    exact ⟨rfl, rfl⟩
  case h_4 =>
    obtain ⟨_, _, hp, h⟩ := taken_of_bind h
    obtain ⟨_, _, hv, h⟩ := taken_of_bind h
    obtain ⟨hprecision, ⟨⟩⟩ := Option.ite_none_left_eq_some.mp h
    rw [takeU8_some hp, takeF64_some hv]
    exact ⟨by simpa [FieldFmt.wellFormed] using hprecision, rfl⟩
  case h_5 =>
    obtain ⟨_, _, hy, h⟩ := taken_of_bind h
    obtain ⟨_, _, hm, h⟩ := taken_of_bind h
    obtain ⟨_, _, hd, ⟨⟩⟩ := taken_of_bind h
    rw [takeU16_some hy, takeU8_some hm, takeU8_some hd]
    exact ⟨rfl, by simp [putFieldFmt]⟩
  case h_6 =>
    obtain ⟨_, _, hh, h⟩ := taken_of_bind h
    obtain ⟨_, _, hm, h⟩ := taken_of_bind h
    obtain ⟨_, _, hs, ⟨⟩⟩ := taken_of_bind h
    rw [takeU8_some hh, takeU8_some hm, takeU8_some hs]
    exact ⟨rfl, rfl⟩
  case h_7 =>
    obtain ⟨_, _, hb, ⟨⟩⟩ := taken_of_bind h
    rw [takeU8_some hb]
    exact ⟨rfl, rfl⟩
  case h_8 => cases h

/-- What is read as an instruction is well formed and is that instruction's bytes. -/
theorem takeCommand_some {op : Byte} {bs rest : Bytes} {i : Instr}
    (h : takeCommand op bs = some (i, rest)) :
    i.wellFormed = true ∧ op :: bs = encode i ++ rest := by
  unfold takeCommand at h
  split at h
  -- Case `h_k` is row k of the opcode table; the rows stand by what they read.
  case h_9 | h_10 =>
    cases h
    exact ⟨rfl, rfl⟩
  case h_1 | h_8 =>
    obtain ⟨_, _, hs, ⟨⟩⟩ := taken_of_bind h
    obtain ⟨hfits, rfl⟩ := takeStr16_some hs
    exact ⟨hfits, rfl⟩
  case h_2 =>
    obtain ⟨_, _, hs, ⟨⟩⟩ := taken_of_bind h
    obtain ⟨hfits, rfl⟩ := takeStr8_some hs
    exact ⟨hfits, rfl⟩
  case h_3 =>
    obtain ⟨_, _, hv, ⟨⟩⟩ := taken_of_bind h
    rw [takeF64_some hv]
    exact ⟨rfl, rfl⟩
  case h_11 =>
    obtain ⟨_, _, hv, ⟨⟩⟩ := taken_of_bind h
    rw [takeU16_some hv]
    exact ⟨rfl, rfl⟩
  case h_14 | h_15 =>
    obtain ⟨_, _, hr, ⟨⟩⟩ := taken_of_bind h
    obtain ⟨hwf, hbytes⟩ := takeSttRec_some hr
    rw [hbytes]
    exact ⟨hwf, rfl⟩
  case h_5 =>
    obtain ⟨_, _, hcode, h⟩ := taken_of_bind h
    obtain ⟨_, _, hpayload, h⟩ := taken_of_bind h
    obtain ⟨_, _, hserial, ⟨⟩⟩ := taken_of_bind h
    obtain ⟨hfits, hbytes⟩ := takeStr8_some hpayload
    rw [takeU8_some hcode, hbytes, takeU16_some hserial]
    exact ⟨hfits, by simp [encode]⟩
  case h_6 =>
    obtain ⟨_, _, hid, h⟩ := taken_of_bind h
    obtain ⟨_, _, hserial, ⟨⟩⟩ := taken_of_bind h
    obtain ⟨hfits, rfl⟩ := takeStr8_some hid
    rw [takeU16_some hserial]
    exact ⟨hfits, by simp [encode]⟩
  case h_12 =>
    obtain ⟨_, _, hfmt, h⟩ := taken_of_bind h
    obtain ⟨_, _, hf, ⟨⟩⟩ := taken_of_bind h
    obtain ⟨hwf, hbytes⟩ := takeFieldFmt_some hf
    rw [takeU8_some hfmt, hbytes]
    exact ⟨hwf, rfl⟩
  case h_13 =>
    obtain ⟨tag, _, htag, h⟩ := taken_of_bind h
    obtain ⟨count, _, hcount, h⟩ := taken_of_bind h
    obtain ⟨fields, _, hfields, ⟨⟩⟩ := taken_of_bind h
    obtain ⟨hfits, rfl⟩ := takeStr8_some htag
    obtain ⟨hlength, hall, hbytes⟩ := takeStr8s_some hfields
    rw [takeU8_some hcount, hbytes]
    have hlt := count.isLt
    refine ⟨?_, by simp [encode, hlength, be]⟩
    simp only [Instr.wellFormed, Bool.and_eq_true, decide_eq_true_eq, List.all_eq_true]
    exact ⟨⟨hfits, by omega⟩, hall⟩
  -- The two rows with a `flags` operand refuse its reserved bits.
  case h_4 =>
    obtain ⟨_, _, hcourse, h⟩ := taken_of_bind h
    obtain ⟨_, _, hflags, h⟩ := taken_of_bind h
    obtain ⟨hclear, ⟨⟩⟩ := Option.ite_none_left_eq_some.mp h
    rw [takeU16_some hcourse, takeU8_some hflags]
    exact ⟨reservedBitsClear_of_not_reserved hclear, by simp [encode]⟩
  case h_7 =>
    obtain ⟨_, _, hr, h⟩ := taken_of_bind h
    obtain ⟨hclear, ⟨⟩⟩ := Option.ite_none_left_eq_some.mp h
    rw [takeLocRec_some hr]
    exact ⟨reservedBitsClear_of_not_reserved hclear, rfl⟩
  case h_16 => cases h

/-! ### The decoder's outcomes (30_encoding.md rules R64, R70) -/

theorem decode_unassigned {op : Byte} (h : opcodeAssigned op = false) (operands : Bytes) :
    decode (op :: operands) = .error .unknownCommand := by
  simp [decode, h]

theorem decode_assigned_ne_unknown {op : Byte} (h : opcodeAssigned op = true) (operands : Bytes) :
    decode (op :: operands) ≠ .error .unknownCommand := by
  simp only [decode, h, if_true]
  split <;> simp

theorem decode_of_take_all {op : Byte} {operands : Bytes} {i : Instr}
    (h : opcodeAssigned op = true) (htake : takeCommand op operands = some (i, [])) :
    decode (op :: operands) = .ok i := by
  simp [decode, h, htake]

theorem decode_of_take_none {op : Byte} {operands : Bytes} (h : opcodeAssigned op = true)
    (htake : takeCommand op operands = none) :
    decode (op :: operands) = .error .malformedCommand := by
  simp [decode, h, htake]

theorem decode_of_left_over {op : Byte} {operands rest : Bytes} {i : Instr}
    (h : opcodeAssigned op = true) (htake : takeCommand op operands = some (i, rest))
    (hrest : rest ≠ []) : decode (op :: operands) = .error .malformedCommand := by
  obtain ⟨b, rest, rfl⟩ := List.exists_cons_of_ne_nil hrest
  simp [decode, h, htake]

/-- With an assigned opcode a command decodes or is malformed. -/
theorem decode_assigned_cases {op : Byte} (h : opcodeAssigned op = true) (operands : Bytes) :
    (∃ i, decode (op :: operands) = .ok i) ∨
      decode (op :: operands) = .error .malformedCommand := by
  cases hdecode : decode (op :: operands) with
  | ok i => exact .inl ⟨i, rfl⟩
  | error e =>
    obtain rfl | rfl := decode_error hdecode
    · exact absurd hdecode (decode_assigned_ne_unknown h operands)
    · exact .inr rfl

/-- The assigned opcodes are those outside the illegal ranges. -/
theorem opcodeAssigned_eq_false_iff (op : Byte) :
    opcodeAssigned op = false ↔
      op.toNat ≤ 0x0F ∨ (0x11 ≤ op.toNat ∧ op.toNat ≤ 0x1F) ∨
        (0x23 ≤ op.toNat ∧ op.toNat ≤ 0x2F) ∨ (0x33 ≤ op.toNat ∧ op.toNat ≤ 0x37) ∨
        (0x39 ≤ op.toNat ∧ op.toNat ≤ 0x3F) ∨ (0x43 ≤ op.toNat ∧ op.toNat ≤ 0x4F) ∨
        0x54 ≤ op.toNat := by
  simp only [opcodeAssigned, decide_eq_false_iff_not, List.mem_cons, List.not_mem_nil,
    or_false, ← BitVec.toNat_inj, BitVec.reduceToNat]
  omega

/-! ### Round trips (30_encoding.md rules R62 to R69) -/

theorem decode_encode {i : Instr} (h : i.wellFormed = true) : decode (encode i) = .ok i := by
  obtain ⟨op, operands, hencode, hassigned, htake⟩ := takeCommand_encode h
  rw [hencode]
  exact decode_of_take_all hassigned (by simpa using htake [])

theorem encode_of_decode_ok {cmd : Bytes} {i : Instr} (h : decode cmd = .ok i) :
    i.wellFormed = true ∧ encode i = cmd := by
  obtain ⟨op, operands, rfl, -, htake⟩ := decode_ok h
  obtain ⟨hwf, hbytes⟩ := takeCommand_some htake
  exact ⟨hwf, by rw [hbytes, List.append_nil]⟩

/-- Bytes after the last operand are left over. -/
theorem decode_append_malformed {cmd extra : Bytes} {i : Instr} (h : decode cmd = .ok i)
    (hextra : extra ≠ []) : decode (cmd ++ extra) = .error .malformedCommand := by
  obtain ⟨hwf, rfl⟩ := encode_of_decode_ok h
  obtain ⟨op, operands, hencode, hassigned, htake⟩ := takeCommand_encode hwf
  rw [hencode]
  exact decode_of_left_over hassigned (htake extra) hextra

/-- A command cut short does not decode: if it did, the bytes cut off would be left over. -/
theorem decode_take_malformed {cmd : Bytes} {i : Instr} (h : decode cmd = .ok i) {k : Nat}
    (hpos : 0 < k) (hlt : k < cmd.length) :
    decode (cmd.take k) = .error .malformedCommand := by
  obtain ⟨op, operands, hcmd, hassigned, -⟩ := decode_ok h
  have htake : cmd.take k = op :: operands.take (k - 1) := by
    rw [hcmd, List.take_cons hpos]
  rw [htake]
  obtain ⟨j, hj⟩ | hmalformed := decode_assigned_cases hassigned (operands.take (k - 1))
  · have hrest : cmd.drop k ≠ [] := by simpa using hlt
    have hleft := decode_append_malformed (htake ▸ hj) hrest
    rw [List.take_append_drop, h] at hleft
    cases hleft
  · exact hmalformed

/-! ### Lengths and offsets (30_encoding.md rules R62, R66, R67) -/

@[simp] theorem putU16_length (v : Word16) : (putU16 v).length = 2 := be_length _ _

@[simp] theorem putU32_length (v : Word32) : (putU32 v).length = 4 := be_length _ _

@[simp] theorem putF64_length (v : F64) : (putF64 v).length = 8 := be_length _ _

@[simp] theorem putStr8_length (s : Bytes) : (putStr8 s).length = 1 + s.length := by
  simp [putStr8]

@[simp] theorem putStr16_length (s : Bytes) : (putStr16 s).length = 2 + s.length := by
  simp [putStr16]

@[simp] theorem putLocRec_length (r : LocRec) : (putLocRec r).length = 39 := by
  simp [putLocRec]

/-- A word reads as its own value from the bytes that carry it. -/
theorem fromBe_putWord (n : Nat) (v : BitVec (8 * n)) : fromBe (putWord n v) = v.toNat := by
  have hlt := v.isLt
  rw [pow_mul] at hlt
  rw [putWord, fromBe_be]
  exact Nat.mod_eq_of_lt hlt

@[simp] theorem fromBe_putU16 (v : Word16) : fromBe (putU16 v) = v.toNat := fromBe_putWord 2 v

@[simp] theorem fromBe_putU32 (v : Word32) : fromBe (putU32 v) = v.toNat := fromBe_putWord 4 v

@[simp] theorem fromBe_putF64 (v : F64) : fromBe (putF64 v) = v.toNat := fromBe_putWord 8 v

/-- A byte string of at least n bytes is a word's bytes and the rest. -/
theorem forall_bytes_of_word (n : Nat) {m : Nat} {p : Bytes → Prop}
    (h : ∀ (v : BitVec (8 * n)) (rest : Bytes), rest.length = m → p (putWord n v ++ rest)) :
    ∀ bs : Bytes, bs.length = m + n → p bs := by
  intro bs hlength
  have hn : (bs.take n).length = n := by simp [hlength]
  have hlt := fromBe_lt (bs.take n)
  have hbe := be_fromBe (bs.take n)
  rw [hn] at hlt hbe
  have hword : putWord n (BitVec.ofNat (8 * n) (fromBe (bs.take n))) = bs.take n := by
    rw [putWord, BitVec.toNat_ofNat, Nat.mod_eq_of_lt (by rwa [pow_mul]), hbe]
  rw [← List.take_append_drop n bs, ← hword]
  exact h _ _ (by simp [hlength])

theorem forall_bytes_of_byte {m : Nat} {p : Bytes → Prop}
    (h : ∀ (b : Byte) (rest : Bytes), rest.length = m → p (b :: rest)) :
    ∀ bs : Bytes, bs.length = m + 1 → p bs := by
  intro bs hlength
  obtain ⟨b, rest, rfl, hrest⟩ := List.length_eq_succ_iff.mp hlength
  exact h b rest hrest

/-- Any 39 bytes carry a LocRec. -/
theorem exists_putLocRec_eq : ∀ bs : Bytes, bs.length = 39 → ∃ r, putLocRec r = bs := by
  refine forall_bytes_of_word 2 fun year => ?_
  refine forall_bytes_of_byte fun month => forall_bytes_of_byte fun day => ?_
  refine forall_bytes_of_byte fun hour => forall_bytes_of_byte fun minute => ?_
  refine forall_bytes_of_byte fun second => forall_bytes_of_byte fun gps => ?_
  refine forall_bytes_of_word 8 fun lat => forall_bytes_of_word 8 fun lon => ?_
  refine forall_bytes_of_byte fun speed => forall_bytes_of_word 2 fun course => ?_
  refine forall_bytes_of_byte fun flags => forall_bytes_of_word 2 fun mcc => ?_
  refine forall_bytes_of_byte fun mnc => forall_bytes_of_word 2 fun lac => ?_
  refine forall_bytes_of_word 4 fun cell => forall_bytes_of_word 2 fun serial => ?_
  intro bs hlength
  obtain rfl := List.length_eq_zero_iff.mp hlength
  refine ⟨{ year, month, day, hour, minute, second, gps, lat, lon, speed, course, flags, mcc, mnc,
            lac, cell, serial }, ?_⟩
  simp [putLocRec, putU16, putU32, putF64, putWord]

/-! ### Reserved operand values (30_encoding.md rule R69) -/

theorem takeU16_cons (hi lo : Byte) (rest : Bytes) :
    takeU16 (hi :: lo :: rest) = some (BitVec.ofNat 16 (fromBe [hi, lo]), rest) := rfl

/-- In a LocRec the flags are the byte at offset 27 (30_encoding.md rule R67). -/
theorem putLocRec_flags (r : LocRec) (rest : Bytes) :
    (putLocRec r ++ rest).getD 27 0 = r.flags := by
  simp [putLocRec, List.getElem?_append]

theorem takeCommand_encCourseStatus_reserved {flags : Byte}
    (h : reservedBitsClear flags = false) (hi lo : Byte) (rest : Bytes) :
    takeCommand 0x22 (hi :: lo :: flags :: rest) = none :=
  (bind_taken (takeU16_cons hi lo _) _).trans <|
    (bind_taken (takeU8_cons flags rest) _).trans <| if_pos (flagsReserved_eq_true h)

theorem takeCommand_buildLocation_reserved {operands : Bytes}
    (h : reservedBitsClear (operands.getD 27 0) = false) : takeCommand 0x32 operands = none := by
  refine Option.bind_eq_none_iff.mpr ?_
  rintro ⟨r, rest⟩ hr
  rw [takeLocRec_some hr, putLocRec_flags] at h
  exact if_pos (flagsReserved_eq_true h)

theorem takeFieldFmt_unassigned {fmt : Byte} (h : 0x07 ≤ fmt.toNat) (bs : Bytes) :
    takeFieldFmt fmt bs = none := by
  unfold takeFieldFmt
  split
  case h_8 => rfl
  all_goals exact absurd h (by decide)

theorem takeFieldFmt_udec_reserved {w : Byte} (h : 10 < w.toNat) (rest : Bytes) :
    takeFieldFmt 0x01 (w :: rest) = none :=
  (bind_taken (takeU8_cons w rest) _).trans <|
    Option.bind_eq_none_iff.mpr fun _ _ => if_pos h

theorem takeFieldFmt_sfix_reserved {p : Byte} (h : 9 < p.toNat) (rest : Bytes) :
    takeFieldFmt 0x03 (p :: rest) = none :=
  (bind_taken (takeU8_cons p rest) _).trans <|
    Option.bind_eq_none_iff.mpr fun _ _ => if_pos h

theorem takeCommand_fmtField_none {fmt : Byte} {bs : Bytes} (h : takeFieldFmt fmt bs = none) :
    takeCommand 0x50 (fmt :: bs) = none :=
  (bind_taken (takeU8_cons fmt bs) _).trans (Option.bind_eq_none_iff.mpr fun _ hf => by
    rw [h] at hf
    cases hf)

end Sys2Proof

namespace Sys2Proof.Machine

/-! ### Legal responses (30_encoding.md rule R61; 60_exceptions.md rules R250, R252) -/

theorem legalResponse_okResponse {result : Bytes} (h : result.length ≤ resultLimit) :
    legalResponse (okResponse result) = true := by
  have hrlen : result.length / 256 % 256 * 256 + result.length % 256 = result.length := by
    unfold resultLimit at h
    omega
  simp [okResponse, responseBytes, be, legalResponse, hrlen]

theorem legalResponse_errorResponse (e : CommandError) :
    legalResponse (errorResponse e) = true := by
  cases e with
  | frameError reason => cases reason <;> decide
  | _ => decide

/-! ### Safe states (70_reset_and_hazards.md rule R286) -/

@[simp] theorem State.answered_safe (n : Word16) (bytes : Bytes) :
    (State.answered n bytes).safe = legalResponse bytes := rfl

@[simp] theorem State.holding_safe (n : Word16) (cmd : Bytes) :
    (State.holding n cmd).safe = true := rfl

theorem raiseError_safe (s : State) (e : CommandError) : (raiseError s e).safe = true :=
  legalResponse_errorResponse e

theorem finish_safe (s : State) (r : Except CommandError Effect) : (finish s r).safe = true := by
  obtain ⟨eff, -, hlimit, h⟩ | ⟨e, h⟩ := finish_cases s r <;> rw [h]
  · exact legalResponse_okResponse hlimit
  · exact raiseError_safe s e

/-- Of all a step can do, waiting keeps the state and every answer is a legal one. -/
theorem step_keeps_safe {s t : State} (hs : s.safe = true) (hstep : step s = .next t) :
    t.safe = true := by
  obtain ⟨-, h⟩ | ⟨_, i, -, -, -, h⟩ | ⟨_, e, -, -, -, h⟩ | ⟨_, _, -, -, h⟩ := step_cases s <;>
    rw [h] at hstep
  · cases hstep
    exact hs
  · obtain ⟨r, hr⟩ := exec_finish i s
    cases hr.symm.trans hstep
    exact finish_safe s r
  · cases hstep
    exact raiseError_safe s e
  · cases hstep

/-! ### The step of a command that does not decode (60_exceptions.md rules R252, R253) -/

theorem step_holding_unknown {cmd : Bytes} (h : decode cmd = .error .unknownCommand)
    (n : Word16) : step (State.holding n cmd) = .next (State.answered n [0x09, 0x00, 0x00]) :=
  step_holding_of_decode_error h n

theorem step_holding_malformed {cmd : Bytes} (h : decode cmd = .error .malformedCommand)
    (n : Word16) : step (State.holding n cmd) = .next (State.answered n [0x08, 0x00, 0x00]) :=
  step_holding_of_decode_error h n

end Sys2Proof.Machine

open Sys2Proof Sys2Proof.Machine

/-- Settles O10: `step_keeps_safe`. -/
theorem stepKeepsSafe : Obligations.StepKeepsSafe :=
  fun _ _ => step_keeps_safe

/-- Settles O12: the operands are read back one by one (`takeCommand_encode`). -/
theorem decodeReadsEncoded : Obligations.DecodeReadsEncoded :=
  fun _ => decode_encode

/-- Settles O13: each reading says which bytes it took (`takeCommand_some`), and the decoder leaves
none over. -/
theorem encodeRestoresDecoded : Obligations.EncodeRestoresDecoded :=
  fun _ _ => encode_of_decode_ok

/-- Settles O5: the listed ranges are the unassigned opcodes (`opcodeAssigned_eq_false_iff`). -/
theorem illegalOpcodesAreUnknown : Obligations.IllegalOpcodesAreUnknown := by
  refine ⟨fun n => step_holding_unknown rfl n, fun n op operands => ?_⟩
  split_ifs with hillegal <;> rw [← opcodeAssigned_eq_false_iff] at hillegal
  · exact step_holding_unknown (decode_unassigned hillegal operands) n
  · exact decode_assigned_ne_unknown (Bool.of_not_eq_false hillegal) operands

/-- Settles O7: a delivered command is answered (`step_holding`), and the answer is legal because the
step of the safe state that holds the command leads to a safe state. -/
theorem everyCommandIsAnswered : Obligations.EveryCommandIsAnswered := by
  intro n cmd
  obtain ⟨bytes, n', hstep⟩ := step_holding n cmd
  exact ⟨bytes, n', transact_of_step hstep, step_keeps_safe (State.holding_safe n cmd) hstep⟩

/-- Settles O15: what follows a command is left over, and a command cut short has bytes that would
be left over if it decoded. -/
theorem wrongLengthIsMalformed : Obligations.WrongLengthIsMalformed :=
  fun _ _ h => ⟨fun _ => decode_append_malformed h, fun _ => decode_take_malformed h⟩

/-- Settles O16: with a reserved value the reading of the operands fails, whatever follows it. -/
theorem reservedValuesAreMalformed : Obligations.ReservedValuesAreMalformed := by
  intro n
  have malformed {op : Byte} {operands : Bytes} (hassigned : opcodeAssigned op = true)
      (h : takeCommand op operands = none) :
      step (State.holding n (op :: operands)) = .next (State.answered n [0x08, 0x00, 0x00]) :=
    step_holding_malformed (decode_of_take_none hassigned h) n
  exact ⟨
    fun hi lo _ rest h => malformed rfl (takeCommand_encCourseStatus_reserved h hi lo rest),
    fun _ h => malformed rfl (takeCommand_buildLocation_reserved h),
    fun _ rest h => malformed rfl (takeCommand_fmtField_none (takeFieldFmt_unassigned h rest)),
    fun _ rest h => malformed rfl (takeCommand_fmtField_none (takeFieldFmt_udec_reserved h rest)),
    fun _ rest h => malformed rfl (takeCommand_fmtField_none (takeFieldFmt_sfix_reserved h rest))⟩

/-- Settles O17: the 39 bytes carry a LocRec (`exists_putLocRec_eq`), which is read back from them;
each one-byte field stands at its offset, and each wider one is the value of its bytes there. -/
theorem locRecFieldsAtTheirOffsets : Obligations.LocRecFieldsAtTheirOffsets := by
  intro operands hlength hclear
  obtain ⟨r, rfl⟩ := exists_putLocRec_eq operands hlength
  have hflags : (putLocRec r).getD 27 0 = r.flags := by simpa using putLocRec_flags r []
  rw [hflags] at hclear
  refine ⟨r, decode_encode (i := .buildLocation r) hclear, ?_⟩
  -- What is left evaluates `getD`, `drop` and `take` along the lengths of the fields before.
  simp [putLocRec, List.drop_append, List.drop_of_length_le,
    List.take_of_length_le]

/-- Settles O3: `step_holding_of_decode_ok`. -/
theorem stepRunsDecodedCommand : Obligations.StepRunsDecodedCommand :=
  fun n _ _ h => step_holding_of_decode_ok h n

/-- Settles O4: the decoder has two errors (`decode_error`). -/
theorem stepAnswersDecodingErrors : Obligations.StepAnswersDecodingErrors := by
  intro n cmd e h
  obtain rfl | rfl := decode_error h
  · exact .inl ⟨rfl, step_holding_unknown h n⟩
  · exact .inr ⟨rfl, step_holding_malformed h n⟩

/-- Settles O14: each command is the encoding of its well-formed instruction, read back by
`decode_encode`. -/
theorem specWordsDecode : Obligations.SpecWordsDecode :=
  ⟨decode_encode (i := .crc16 [0x01, 0x00]) rfl,
    decode_encode (i := .encCourseStatus 0xFE98 0x31) rfl,
    decode_encode (i := .buildFrame 0x13 [0xAA] 0x1234) rfl,
    decode_encode (i := .serialLoad 0xFFFE) rfl,
    decode_encode (i := .fmtField (.udec 5 99999)) rfl,
    decode_encode (i := .textRecord [0x54] [[0x61], []]) rfl⟩

/-- Settles O18: the lengths of the operands' own bytes, added up. -/
theorem operandByteCounts : Obligations.OperandByteCounts := by
  refine ⟨fun _ => ?_, fun _ => ?_, fun _ => ?_, fun _ _ => ?_, fun _ _ _ => ?_, fun _ _ => ?_,
    fun _ => ?_, fun _ => ?_, rfl, rfl, fun _ => ?_, fun tag fields => ?_, fun _ => rfl⟩
  all_goals simp [encode, List.length_flatMap] <;> omega
end

section
/-! PROOF. The statements about 40_crc.md. All rest on two facts about a round: it is linear over
XOR (`crcRound_xor`), and it only shifts a word whose bit 15 is clear, so that eight rounds move a byte
from the low half of the word to the high half (`crcRounds_low`). The table-driven form of `crcByte`
is the two together (`crcByte_eq_table`); it says what `crcByte` does with the bytes of its own
accumulator, which is the residue law. -/

namespace Sys2Proof.Machine

/-! ### The rounds (40_crc.md rule R100) -/

theorem crcRound_xor (x y : Word16) : crcRound (x ^^^ y) = crcRound x ^^^ crcRound y := by
  simp only [crcRound, BitVec.getLsbD_xor, BitVec.shiftLeft_xor_distrib]
  cases x.getLsbD 15 <;> cases y.getLsbD 15
  case true.true =>
    calc x <<< 1 ^^^ y <<< 1 = x <<< 1 ^^^ y <<< 1 ^^^ (crcPoly ^^^ crcPoly) := by simp
      _ = (x <<< 1 ^^^ crcPoly) ^^^ (y <<< 1 ^^^ crcPoly) := by ac_rfl
  case true.false =>
    show x <<< 1 ^^^ y <<< 1 ^^^ crcPoly = x <<< 1 ^^^ crcPoly ^^^ y <<< 1
    ac_rfl
  case false.true => exact BitVec.xor_assoc _ _ _
  case false.false => rfl

theorem crcRounds_xor (x y : Word16) : crcRounds (x ^^^ y) = crcRounds x ^^^ crcRounds y := by
  simp only [crcRounds, crcRound_xor]

/-- While a byte has not reached bit 15, a round only shifts it. -/
theorem crcRound_shiftLeft (b : Byte) {k : ℕ} (hk : k < 8) :
    crcRound (b.setWidth 16 <<< k) = b.setWidth 16 <<< (k + 1) := by
  have hclear : (b.setWidth 16 <<< k).getLsbD 15 = false := by
    simp [BitVec.getLsbD_of_ge b (15 - k) (by omega)]
  rw [crcRound, hclear, BitVec.shiftLeft_add]
  rfl

theorem crcRounds_low (b : Byte) : crcRounds (b.setWidth 16) = b.setWidth 16 <<< 8 := by
  have h : crcRounds (b.setWidth 16 <<< 0) = b.setWidth 16 <<< 8 := by
    simp only [crcRounds, crcRound_shiftLeft, Nat.reduceLT, Nat.reduceAdd]
  simpa using h

/-! ### The two bytes of a word (00_scope.md rule R11) -/

/-- Bits 15 to 8, the byte `be 2` writes first. -/
def highByte (c : Word16) : Byte := (c >>> 8).setWidth 8

/-- Bits 7 to 0, the byte `be 2` writes second. -/
def lowByte (c : Word16) : Byte := c.setWidth 8

theorem putU16_eq_bytes (c : Word16) : putU16 c = [highByte c, lowByte c] := by
  have h : c.toNat / 256 = c.toNat >>> 8 := (Nat.shiftRight_eq_div_pow _ 8).symm
  simp [putU16, be, highByte, lowByte, ← BitVec.toNat_inj, h]

theorem highByte_xor_lowByte (c : Word16) :
    (highByte c).setWidth 16 <<< 8 ^^^ (lowByte c).setWidth 16 = c := by
  ext i hi
  by_cases hlow : i < 8
  · simp [highByte, lowByte, hlow, BitVec.getLsbD_eq_getElem hi]
  · have hhigh : i - 8 < 8 ∧ 8 + (i - 8) = i := by omega
    simp [highByte, lowByte, hlow, hhigh, BitVec.getLsbD_eq_getElem hi]

theorem lowByte_shiftLeft (c : Word16) : (lowByte c).setWidth 16 <<< 8 = c <<< 8 := by
  ext i hi
  have hlow : i - 8 < 8 := by omega
  simp [lowByte, hlow, BitVec.getLsbD_eq_getElem (show i - 8 < 16 by omega)]

theorem highByte_shiftLeft (c : Word16) : highByte (c <<< 8) = lowByte c := by
  ext i hi
  simp [highByte, lowByte, BitVec.getLsbD_eq_getElem (show i < 16 by omega),
    show 8 + i < 16 by omega]

/-! ### Folding one byte (40_crc.md rules R100, R103) -/

@[simp] theorem crcByte_zero_zero : crcByte 0 0 = 0 := rfl

/-- An entry of the table of rule R103. -/
theorem crcByte_zero_left (b : Byte) : crcByte 0 b = crcRounds (b.setWidth 16 <<< 8) :=
  congrArg crcRounds BitVec.zero_xor

theorem crcByte_xor (c d : Word16) (a b : Byte) :
    crcByte (c ^^^ d) (a ^^^ b) = crcByte c a ^^^ crcByte d b := by
  rw [crcByte, crcByte, crcByte, ← crcRounds_xor, BitVec.setWidth_xor,
    BitVec.shiftLeft_xor_distrib]
  congr 1
  ac_rfl

/-- The low byte of the accumulator is only shifted; the high byte and the byte folded in meet in
one index of the table. -/
theorem crcByte_eq_table (c : Word16) (b : Byte) :
    crcByte c b = c <<< 8 ^^^ crcByte 0 (highByte c ^^^ b) :=
  calc crcByte c b
    _ = crcByte ((highByte c).setWidth 16 <<< 8 ^^^ (lowByte c).setWidth 16) b := by
      rw [highByte_xor_lowByte]
    _ = crcRounds ((lowByte c).setWidth 16 ^^^ (highByte c ^^^ b).setWidth 16 <<< 8) := by
      rw [crcByte, BitVec.setWidth_xor, BitVec.shiftLeft_xor_distrib]
      congr 1
      ac_rfl
    _ = c <<< 8 ^^^ crcByte 0 (highByte c ^^^ b) := by
      rw [crcRounds_xor, crcRounds_low, lowByte_shiftLeft, crcByte_zero_left]

theorem crcByte_highByte (c : Word16) : crcByte c (highByte c) = c <<< 8 := by
  rw [crcByte_eq_table, BitVec.xor_self]
  exact BitVec.xor_zero

theorem crcByte_lowByte (c : Word16) : crcByte (c <<< 8) (lowByte c) = 0 := by
  rw [← highByte_shiftLeft, crcByte_highByte, ← BitVec.shiftLeft_add]
  exact BitVec.shiftLeft_eq_zero (Nat.le_refl 16)

/-! ### Folding a byte string (40_crc.md rules R102, R104) -/

theorem foldl_crcByte_zipWith {a b : Bytes} (h : a.length = b.length) (c d : Word16) :
    (List.zipWith (· ^^^ ·) a b).foldl crcByte (c ^^^ d) =
      a.foldl crcByte c ^^^ b.foldl crcByte d := by
  induction a generalizing b c d with
  | nil =>
    obtain rfl := List.length_eq_zero_iff.mp h.symm
    rfl
  | cons x a ih =>
    obtain ⟨y, b, rfl⟩ := List.exists_cons_of_length_eq_add_one h.symm
    rw [List.zipWith_cons_cons, List.foldl_cons, crcByte_xor, ih (Nat.succ.inj h)]
    rfl

theorem crc16_replicate_zero (k : ℕ) : crc16 (List.replicate k 0) = 0 := by
  induction k with
  | zero => rfl
  | succ k ih => rwa [List.replicate_succ, crc16, List.foldl_cons, crcByte_zero_zero]

theorem crc16_residue (s : Bytes) : crc16 (s ++ putU16 (crc16 s)) = 0 := by
  rw [crc16_append, putU16_eq_bytes, List.foldl_cons, List.foldl_cons, List.foldl_nil,
    crcByte_highByte, crcByte_lowByte]

/-! ### The CRC16 command (40_crc.md rule R101) -/

theorem okResponse_putU16 (v : Word16) :
    okResponse (putU16 v) = [0x00, 0x00, 0x02] ++ putU16 v := by
  simp [okResponse, responseBytes, be]

theorem exec_crc16 (data : Bytes) (s : State) :
    exec (.crc16 data) s =
      .next (State.answered s.serial ([0x00, 0x00, 0x02] ++ putU16 (crc16 data))) := by
  have hlength : (putU16 (crc16 data)).length ≤ resultLimit := by
    rw [putU16_length]
    decide
  exact congrArg Host.Outcome.next ((finishPure_ok s hlength).trans (by rw [okResponse_putU16]))

/-- What the opcode of CRC16 decodes is a length field and as many bytes as it says. -/
theorem operands_of_decode_crc16 {operands : Bytes} {i : Instr}
    (h : decode (0x10 :: operands) = .ok i) :
    ∃ data : Bytes, data.length ≤ 65535 ∧ operands = be 2 data.length ++ data := by
  obtain ⟨_, _, ⟨⟩, -, htake⟩ := decode_ok h
  obtain ⟨data, rest, hdata, ⟨⟩⟩ := taken_of_bind htake
  obtain ⟨hfits, hbytes⟩ := takeStr16_some hdata
  exact ⟨data, by simpa [fitsStr16] using hfits, by rw [hbytes, List.append_nil, putStr16]⟩

end Sys2Proof.Machine

open Sys2Proof Sys2Proof.Machine

/-- Settles O19: data that fits the length field is encoded and read back (`decode_encode`); an
operand string that decodes has that form (`operands_of_decode_crc16`), so any other is
malformed. -/
theorem crc16Command : Obligations.Crc16Command := by
  refine ⟨exec_crc16, fun n data hlength => ?_, fun n operands hno => ?_, rfl, fun data => ?_,
    ?_⟩
  · have hdecode := decode_encode (i := .crc16 data) (decide_eq_true hlength)
    exact (step_holding_of_decode_ok hdecode n).trans (exec_crc16 data _)
  · obtain ⟨i, hi⟩ | hmalformed := decode_assigned_cases (op := 0x10) rfl operands
    · obtain ⟨data, hlength, hoperands⟩ := operands_of_decode_crc16 hi
      exact absurd hoperands (hno data hlength)
    · exact step_holding_malformed hmalformed n
  · rw [crc16_residue]
    rfl
  · simp [crc16, crcByte, crcRounds, crcRound, crcPoly, putU16, be]

/-- Settles O20: `crcByte_eq_table`. -/
theorem crcTableDrivenForm : Obligations.CrcTableDrivenForm :=
  crcByte_eq_table

/-- Settles O21: the zero accumulator stays zero under zero bytes, the residue is
`crc16_residue`, and XOR goes through the fold (`foldl_crcByte_zipWith`). -/
theorem crcLaws : Obligations.CrcLaws := by
  refine ⟨crc16_nil, fun k s => ?_, crc16_residue, fun a b h => ?_, ?_⟩
  · rw [crc16_append, crc16_replicate_zero]
    rfl
  · exact foldl_crcByte_zipWith h 0 0
  · simp [crc16, crcByte, crcRounds, crcRound, crcPoly]
end

section
/-! PROOF. The statements about 41_field_encoders.md. For each encoder the lemmas say
what value it answers, in terms of its operands alone, and when it refuses; the commands then only
put that value behind the response header (`answerPure_ok_of_length`). -/

namespace Sys2Proof.Machine

/-! ### Answering a result (30_encoding.md rule R61) -/

/-- A result of fewer than 256 bytes: its length is the low byte of `rlen`. -/
theorem answerPure_ok_of_length (s : State) {result : Bytes} {n : ℕ} (hlength : result.length = n)
    (hn : n < 256) :
    answerPure s (.ok result) =
      .next (State.answered s.serial ([0x00, 0x00, BitVec.ofNat 8 n] ++ result)) := by
  have hlimit : result.length ≤ resultLimit := by
    unfold resultLimit
    omega
  have hresponse : okResponse result = [0x00, 0x00, BitVec.ofNat 8 n] ++ result := by
    simp [okResponse, responseBytes, be, hlength, Nat.div_eq_of_lt hn]
  rw [answerPure, finishPure_ok s hlimit, hresponse]

/-! ### Identities (41_field_encoders.md rules R121, R122) -/

theorem validIdentity_iff (id : Bytes) :
    validIdentity id = true ↔ (id.length = 15 ∨ id.length = 16) ∧ AllDigits id := by
  simp [validIdentity, isDigit, AllDigits]

theorem padIdentity_length {id : Bytes} (h : id.length = 15 ∨ id.length = 16) :
    (padIdentity id).length = 16 := by
  unfold padIdentity
  split_ifs with hshort
  · rw [List.length_cons, hshort]
  · exact h.resolve_left hshort

theorem padIdentity_allDigits {id : Bytes} (h : AllDigits id) : AllDigits (padIdentity id) := by
  unfold padIdentity
  split
  · exact List.forall_mem_cons.mpr ⟨by decide, h⟩
  · exact h

/-! ### Packed digits (41_field_encoders.md rules R123, R124) -/

/-- A byte that packs two ASCII digits holds the first in its high nibble. -/
theorem packed_toNat {hi lo : Byte} (hhi : 0x30 ≤ hi.toNat ∧ hi.toNat ≤ 0x39)
    (hlo : 0x30 ≤ lo.toNat ∧ lo.toNat ≤ 0x39) :
    ((hi - 0x30) <<< 4 ||| (lo - 0x30)).toNat = (hi.toNat - 0x30) * 2 ^ 4 + (lo.toNat - 0x30) := by
  have hnum (b : Byte) (h : 0x30 ≤ b.toNat) : (b - 0x30).toNat = b.toNat - 0x30 :=
    BitVec.toNat_sub_of_le h
  have hfits : (hi.toNat - 0x30) <<< 4 < 2 ^ 8 := by
    rw [Nat.shiftLeft_eq]
    omega
  rw [BitVec.toNat_or, BitVec.toNat_shiftLeft, hnum hi hhi.1, hnum lo hlo.1, Nat.mod_eq_of_lt hfits,
    ← Nat.shiftLeft_add_eq_or_of_lt (by omega), Nat.shiftLeft_eq]

theorem digitByte_toNat_sub {b : Byte} (h : 0x30 ≤ b.toNat) : digitByte (b.toNat - 0x30) = b := by
  rw [digitByte, Nat.add_sub_cancel' h, BitVec.ofNat_toNat, BitVec.setWidth_eq]

theorem packDigits_length (s : Bytes) : (packDigits s).length = s.length / 2 := by
  induction s using packDigits.induct with
  | case1 hi lo rest ih =>
    simp only [packDigits, List.length_cons, ih]
    omega
  | case2 _ => simp [packDigits]
  | case3 => rfl

/-- Unpacking gives back the digits, two for each byte. -/
theorem unpackBcd_packDigits {s : Bytes} (hdigits : AllDigits s) (heven : Even s.length) :
    unpackBcd (packDigits s) = s := by
  induction s using packDigits.induct with
  | case1 hi lo rest ih =>
    obtain ⟨hhi, hdigits⟩ := List.forall_mem_cons.mp hdigits
    obtain ⟨hlo, hrest⟩ := List.forall_mem_cons.mp hdigits
    have hstep := ih hrest (by simpa [parity_simps] using heven)
    have hhigh : ((hi.toNat - 0x30) * 2 ^ 4 + (lo.toNat - 0x30)) / 16 = hi.toNat - 0x30 := by omega
    have hlow : ((hi.toNat - 0x30) * 2 ^ 4 + (lo.toNat - 0x30)) % 16 = lo.toNat - 0x30 := by omega
    rw [unpackBcd] at hstep ⊢
    rw [packDigits, List.flatMap_cons, hstep, packed_toNat hhi hlo, hhigh, hlow,
      digitByte_toNat_sub hhi.1, digitByte_toNat_sub hlo.1]
    rfl
  | case2 _ => exact absurd heven (by simp)
  | case3 => rfl

/-! ### `bcd8` (41_field_encoders.md rules R121 to R124) -/

theorem bcd8_of_valid {id : Bytes} (hlength : id.length = 15 ∨ id.length = 16)
    (hdigits : AllDigits id) :
    ∃ out, bcd8 id = .ok out ∧ out.length = 8 ∧ unpackBcd out = padIdentity id := by
  have hpad := padIdentity_length hlength
  refine ⟨packDigits (padIdentity id), ?_, by rw [packDigits_length, hpad],
    unpackBcd_packDigits (padIdentity_allDigits hdigits) (by rw [hpad]; decide)⟩
  rw [bcd8, if_pos ((validIdentity_iff id).mpr ⟨hlength, hdigits⟩)]

theorem bcd8_of_invalid {id : Bytes}
    (h : ¬ ((id.length = 15 ∨ id.length = 16) ∧ AllDigits id)) :
    bcd8 id = .error .invalidIdentity :=
  if_neg ((validIdentity_iff id).not.mpr h)

/-! ### Bounds on a rounded value (00_scope.md rule R12) -/

theorem IsNearestEven.le_of_le {q : ℚ} {n m : ℤ} (h : IsNearestEven q n) (hq : q ≤ m) : n ≤ m := by
  obtain ⟨hlow, -⟩ := abs_le.mp h.1
  have hlt : (n : ℚ) < (m + 1 : ℤ) := by
    push_cast
    linarith
  exact Int.lt_add_one_iff.mp (by exact_mod_cast hlt)

theorem IsNearestEven.ge_of_ge {q : ℚ} {n m : ℤ} (h : IsNearestEven q n) (hq : m ≤ q) : m ≤ n := by
  obtain ⟨-, hhigh⟩ := abs_le.mp h.1
  have hlt : ((m - 1 : ℤ) : ℚ) < n := by
    push_cast
    linarith
  exact Int.sub_one_lt_iff.mp (by exact_mod_cast hlt)

/-! ### Coordinates (41_field_encoders.md rules R126, R127) -/

theorem coord_of_not_withinLimit {f : F64} {limit : ℕ} (h : ¬ WithinLimit f limit) :
    coord f limit = .error .coordRange := by
  obtain ⟨hfinite, hle, -⟩ | ⟨-, herror⟩ := coord_cases f limit
  · exact absurd ((withinLimit_iff f limit).mpr ⟨hfinite, hle⟩) h
  · exact herror

/-- The product the model rounds is the exact magnitude times 1800000. -/
theorem abs_exactQ_mul_scale (f : F64) :
    |exactQ f| * 1800000 = (((f64Magnitude f * coordScale : ℕ) : ℤ) : ℚ) / (f64Den f : ℚ) := by
  rw [abs_exactQ, coordScale]
  push_cast
  ring

theorem coord_of_withinLimit {f : F64} {limit : ℕ} (h : WithinLimit f limit) :
    ∃ v : ℕ, coord f limit = .ok v ∧ IsNearestEven (|exactQ f| * 1800000) v ∧
      v ≤ limit * 1800000 := by
  obtain ⟨-, -, hok⟩ | ⟨hno, -⟩ := coord_cases f limit
  · have hnear := rhe_isNearestEven (f64Magnitude f * coordScale : ℕ) (f64Den_pos f)
    rw [← abs_exactQ_mul_scale] at hnear
    have hnonneg := hnear.ge_of_ge (m := 0) (by push_cast; positivity)
    rw [← Int.toNat_of_nonneg hnonneg] at hnear
    have hbound := hnear.le_of_le (m := (limit * 1800000 : ℕ)) (by push_cast; linarith [h.2])
    exact ⟨_, hok, hnear, by exact_mod_cast hbound⟩
  · obtain ⟨hfinite, hle⟩ := (withinLimit_iff f limit).mp h
    simp [hfinite, hle] at hno

/-- `coord` reads the exponent and the fraction of its operand, and not the sign. -/
theorem coord_congr {f g : F64} (hexp : f64Exponent f = f64Exponent g)
    (hfrac : f64Fraction f = f64Fraction g) (limit : ℕ) : coord f limit = coord g limit := by
  have hfinite : f64Finite f = f64Finite g := by rw [f64Finite, f64Finite, hexp]
  have hmagnitude : f64Magnitude f = f64Magnitude g := by
    rw [f64Magnitude, f64Magnitude, hexp, hfrac]
  have hden : f64Den f = f64Den g := by rw [f64Den, f64Den, hexp]
  have hle : f64AbsLe f limit = f64AbsLe g limit := by rw [f64AbsLe, f64AbsLe, hmagnitude, hden]
  rw [coord, coord, hfinite, hle, hmagnitude, hden]

theorem coord_flip_sign (f : F64) (limit : ℕ) :
    coord (f ^^^ (1 <<< 63)) limit = coord f limit := by
  have hexp : (1 <<< 63 : F64).extractLsb' 52 11 = 0 := by decide
  have hfrac : (1 <<< 63 : F64).extractLsb' 0 52 = 0 := by decide
  refine coord_congr ?_ ?_ limit
  · rw [f64Exponent_eq_extract, f64Exponent_eq_extract, BitVec.extractLsb'_xor, hexp]
    simp
  · rw [f64Fraction_eq_extract, f64Fraction_eq_extract, BitVec.extractLsb'_xor, hfrac]
    simp

/-- A coordinate reaches the location frame through `coord` alone. -/
theorem locationFrame_congr_coord (P : Params) (r : LocRec) {lat lon : F64}
    (hlat : coord lat latLimit = coord r.lat latLimit)
    (hlon : coord lon lonLimit = coord r.lon lonLimit) :
    locationFrame P { r with lat := lat, lon := lon } = locationFrame P r := by
  simp only [locationFrame, hlat, hlon]
  rfl

/-! ### Course and status (41_field_encoders.md rules R131 to R134) -/

/-- Without reserved bits the flags are their own status bits, at most bits 0, 4 and 5. -/
theorem statusBits_of_clear {flags : Byte} (h : reservedBitsClear flags = true) :
    statusBits flags = flags ∧ flags.toNat ≤ 0x31 := by
  revert flags
  decide

theorem getLsbD_of_clear {flags : Byte} (h : reservedBitsClear flags = true) :
    flags.getLsbD 1 = false ∧ flags.getLsbD 2 = false ∧ flags.getLsbD 3 = false := by
  simp only [reservedBitsClear, Bool.and_eq_true, Bool.not_eq_true'] at h
  obtain ⟨⟨⟨⟨h1, h2⟩, h3⟩, -⟩, -⟩ := h
  exact ⟨h1, h2, h3⟩

theorem courseStatus_of_clear (c : ℤ) {flags : Byte} (h : reservedBitsClear flags = true) :
    ∃ w : Word16, courseStatus c flags = .ok w ∧
      w.toNat = 2 ^ 6 * packedCourse c + flags.toNat := by
  obtain ⟨hbits, hflags⟩ := statusBits_of_clear h
  obtain ⟨-, hcourse⟩ := packedCourse_bounds c
  obtain ⟨-, hok⟩ | ⟨hreserved, -⟩ := courseStatus_cases c flags
  · refine ⟨_, hok, ?_⟩
    have hfits : packedCourse c <<< 6 < 2 ^ 16 := by
      rw [Nat.shiftLeft_eq]
      omega
    rw [hbits, BitVec.toNat_or, BitVec.toNat_shiftLeft, BitVec.toNat_ofNat, BitVec.toNat_setWidth,
      Nat.mod_eq_of_lt (by omega : packedCourse c < 2 ^ 16), Nat.mod_eq_of_lt hfits,
      Nat.mod_eq_of_lt (by omega : flags.toNat < 2 ^ 16),
      ← Nat.shiftLeft_add_eq_or_of_lt (by omega), Nat.shiftLeft_eq, Nat.mul_comm]
  · exact absurd hreserved (by simp [flagsReserved_eq_false h])

theorem courseStatus_of_reserved (c : ℤ) {flags : Byte} (h : reservedBitsClear flags = false) :
    courseStatus c flags = .error .malformedCommand :=
  if_pos (flagsReserved_eq_true h)

/-- Bits 5 to 0 of a packed field are those of the flags. -/
theorem getLsbD_of_packed {w : Word16} {course : ℕ} {flags : Byte} {i : ℕ}
    (hflags : flags.toNat ≤ 0x31) (hw : w.toNat = 2 ^ 6 * course + flags.toNat) (hi : i < 6) :
    w.getLsbD i = flags.getLsbD i := by
  rw [BitVec.getLsbD, hw, Nat.testBit_two_pow_mul_add course (by omega), if_pos hi, BitVec.getLsbD]

end Sys2Proof.Machine

open Sys2Proof Sys2Proof.Machine

/-- Settles O22: the 16 digits of the padded identity pack into 8 bytes, and unpacking gives them
back (`bcd8_of_valid`). -/
theorem encBcdRoundTrip : Obligations.EncBcdRoundTrip := by
  intro id s hlength hdigits
  obtain ⟨out, hok, hout, hunpack⟩ := bcd8_of_valid hlength hdigits
  refine ⟨out, ?_, hout, hunpack⟩
  exact (congrArg (answerPure s) hok).trans (answerPure_ok_of_length s hout (by decide))

/-- Settles O23: both commands begin with `bcd8`, which refuses the identity. -/
theorem invalidIdentityRefused : Obligations.InvalidIdentityRefused := by
  intro id s hinvalid
  have hbcd := bcd8_of_invalid hinvalid
  refine ⟨congrArg (answerPure s) hbcd, fun serial => ?_⟩
  have hexec : exec (.buildLogin id serial) s =
      answerPure s (bcd8 id >>= fun payload => frame loginCode payload serial) := rfl
  rw [hexec, hbcd]
  rfl

/-- Settles O26: the rounded value is within the limit's own product, which is an integer
(`coord_of_withinLimit`). -/
theorem coordRoundsExactProduct : Obligations.CoordRoundsExactProduct := by
  intro f limit
  refine ⟨coord_of_not_withinLimit, fun hwithin => ?_⟩
  obtain ⟨v, hok, hnear, hbound⟩ := coord_of_withinLimit hwithin
  exact ⟨v, hok, hnear, fun _ => by omega⟩

/-- Settles O27: `coord` at the longitude limit, in four bytes. -/
theorem encCoordCommand : Obligations.EncCoordCommand := by
  intro deg s
  have hexec : exec (.encCoord deg) s = answerPure s ((coord deg lonLimit).map (be 4)) := rfl
  refine ⟨fun hwithin => ?_, fun houtside => ?_⟩
  · obtain ⟨v, hok, hnear, hbound⟩ := coord_of_withinLimit (limit := lonLimit) hwithin
    rw [lonLimit] at hbound
    refine ⟨v, ?_, hnear, by omega⟩
    rw [hexec, hok]
    exact answerPure_ok_of_length s (be_length 4 v) (by decide)
  · rw [hexec, coord_of_not_withinLimit (limit := lonLimit) houtside]
    rfl

/-- Settles O28: the course, 1 to 359, stands above the flags, which are below 64
(`courseStatus_of_clear`). -/
theorem courseStatusPacksCourse : Obligations.CourseStatusPacksCourse := by
  intro c flags
  refine ⟨courseStatus_of_reserved c, fun hclear => ?_⟩
  obtain ⟨w, hok, hw⟩ := courseStatus_of_clear c hclear
  obtain ⟨-, hflags⟩ := statusBits_of_clear hclear
  obtain ⟨hlow, hhigh⟩ := packedCourse_bounds c
  exact ⟨w, hok, hw, by omega, by omega, by omega⟩

/-- Settles O29: the packed field of `courseStatus_of_clear`, read as its high bits and, bit by bit,
as the flags (`getLsbD_of_packed`). -/
theorem encCourseStatusCommand : Obligations.EncCourseStatusCommand := by
  intro course flags s
  have hexec : exec (.encCourseStatus course flags) s =
      answerPure s ((courseStatus course.toInt flags).map putU16) := rfl
  refine ⟨fun hclear => ?_, fun hreserved => ?_⟩
  · obtain ⟨w, hok, hw⟩ := courseStatus_of_clear course.toInt hclear
    obtain ⟨-, hflags⟩ := statusBits_of_clear hclear
    have hbit {i : ℕ} (hi : i < 6) := getLsbD_of_packed hflags hw hi
    obtain ⟨h1, h2, h3⟩ := getLsbD_of_clear hclear
    have hhigh : w.toNat / 64 = packedCourse course.toInt := by omega
    refine ⟨w, ?_, hhigh, hbit (by decide), (hbit (by decide)).trans h1,
      (hbit (by decide)).trans h2, (hbit (by decide)).trans h3, hbit (by decide), hbit (by decide)⟩
    rw [hexec, hok]
    exact answerPure_ok_of_length s (putU16_length w) (by decide)
  · rw [hexec, courseStatus_of_reserved _ hreserved]
    rfl

/-- Settles O38: the coordinates reach the frame through `coord`, which does not read the sign
(`locationFrame_congr_coord`, `coord_flip_sign`). -/
theorem coordinateSignsDoNotReachFrame : Obligations.CoordinateSignsDoNotReachFrame :=
  fun r s => ⟨
    congrArg (answerPure s) (locationFrame_congr_coord _ r (coord_flip_sign r.lat _) rfl),
    congrArg (answerPure s) (locationFrame_congr_coord _ r rfl (coord_flip_sign r.lon _))⟩
end

section
/-! PROOF. The statements about 42_binary_frame.md. What `frame` builds has one form (`frameBytes`),
and the checks of PARSE_FRAME, said of the frame's own size (`PassesChecks`), hold of exactly the byte
strings of that form: `frameBytes_passesChecks` and `eq_frameBytes_of_passesChecks`. Both readings go
through slices, whose lemmas stand first. -/

namespace Sys2Proof

/-! ### Two bytes as a word (00_scope.md rule R11) -/

/-- The big-endian reading of two bytes is their concatenation. -/
theorem putU16_append_bytes (hi lo : Byte) : putU16 (hi ++ lo) = [hi, lo] := by
  have hvalue : (hi ++ lo).toNat = fromBe [hi, lo] := by
    rw [BitVec.toNat_append, ← Nat.shiftLeft_add_eq_or_of_lt lo.isLt, Nat.shiftLeft_eq]
    simp [fromBe]
  rw [putU16, hvalue]
  exact be_fromBe [hi, lo]

theorem toNat_eq_fromBe_iff {w : Word16} {s : Bytes} (h : s.length = 2) :
    w.toNat = fromBe s ↔ putU16 w = s := by
  constructor
  · intro hw
    rw [putU16, hw, ← h, be_fromBe]
  · rintro rfl
    exact (fromBe_putU16 w).symm

theorem exists_putU16_eq {s : Bytes} (h : s.length = 2) : ∃ w, putU16 w = s := by
  obtain ⟨hi, lo, rfl⟩ := List.length_eq_two.mp h
  exact ⟨hi ++ lo, putU16_append_bytes hi lo⟩

theorem putU16_eq_pair_iff {w : Word16} {hi lo : Byte} : putU16 w = [hi, lo] ↔ w = hi ++ lo := by
  rw [← toNat_eq_fromBe_iff rfl, ← BitVec.toNat_inj, ← fromBe_putU16 (hi ++ lo),
    putU16_append_bytes]

end Sys2Proof

namespace Sys2Proof.Machine

/-! ### Slices (00_scope.md rule R10) -/

theorem slice_length {s : Bytes} {a b : ℕ} (h : b ≤ s.length) : (slice s a b).length = b - a := by
  rw [slice, List.length_take, List.length_drop]
  omega

/-- Neighbouring slices join. -/
theorem slice_append_slice (s : Bytes) {a b c : ℕ} (hab : a ≤ b) (hbc : b ≤ c) :
    slice s a b ++ slice s b c = slice s a c := by
  obtain ⟨m, rfl⟩ := Nat.exists_eq_add_of_le hab
  obtain ⟨n, rfl⟩ := Nat.exists_eq_add_of_le hbc
  rw [slice, slice, slice, Nat.add_sub_cancel_left, Nat.add_sub_cancel_left, Nat.add_assoc,
    Nat.add_sub_cancel_left, List.take_add, List.drop_drop]

theorem slice_eq_take_drop {a b n : ℕ} (h : b = a + n) (s : Bytes) :
    slice s a b = (s.drop a).take n := by
  rw [slice, h, Nat.add_sub_cancel_left]

theorem slice_zero_length (s : Bytes) : slice s 0 s.length = s := by
  simp [slice]

theorem slice_eq_pair {s : Bytes} {a b : ℕ} (hab : b = a + 2) (hb : b ≤ s.length) :
    slice s a b = [s.getD a 0, s.getD (a + 1) 0] := by
  subst hab
  rw [slice, Nat.add_sub_cancel_left, List.drop_eq_getElem_cons (by omega),
    List.drop_eq_getElem_cons (by omega), List.getD_eq_getElem _ _ (by omega),
    List.getD_eq_getElem _ _ (by omega)]
  rfl

/-- The part of a concatenation that stands after `a` bytes and before `b`. -/
theorem slice_append_append {front part back : Bytes} {a b : ℕ} (ha : front.length = a)
    (hb : a + part.length = b) : slice (front ++ part ++ back) a b = part := by
  subst ha hb
  rw [slice, List.append_assoc, List.drop_left, Nat.add_sub_cancel_left, List.take_left]

/-! ### Built frames (42_binary_frame.md rules R157, R158) -/

/-- The bytes of a frame. -/
def frameBytes (code : Byte) (payload : Bytes) (serial : Word16) : Bytes :=
  startMarker ++ frameBody code payload serial ++ putU16 (crc16 (frameBody code payload serial)) ++
    endMarker

theorem frame_of_le {payload : Bytes} (h : payload.length ≤ 250) (code : Byte) (serial : Word16) :
    frame code payload serial = .ok (frameBytes code payload serial) := by
  obtain ⟨-, hok⟩ | ⟨hlong, -⟩ := frame_cases code payload serial
  · exact hok
  · exact absurd h hlong.not_ge

theorem frame_of_gt {payload : Bytes} (h : 250 < payload.length) (code : Byte) (serial : Word16) :
    frame code payload serial = .error .lengthOverflow :=
  if_pos h

theorem be_one (v : ℕ) : be 1 v = [BitVec.ofNat 8 v] := by
  simp [be]

theorem frameBody_eq (code : Byte) (payload : Bytes) (serial : Word16) :
    frameBody code payload serial =
      [BitVec.ofNat 8 (payload.length + 5), code] ++ payload ++ putU16 serial := by
  rw [frameBody, be_one, show 1 + payload.length + 2 + 2 = payload.length + 5 by omega]
  rfl

section Parts

variable (code : Byte) (payload : Bytes) (serial : Word16)

theorem frameBytes_length : (frameBytes code payload serial).length = payload.length + 10 := by
  simp [frameBytes, frameBody_length, startMarker, endMarker]

/-- The payload and the serial between the fixed bytes before them and those after. -/
theorem frameBytes_eq_fields : frameBytes code payload serial =
    startMarker ++ [BitVec.ofNat 8 (payload.length + 5), code] ++ (payload ++ putU16 serial) ++
      putU16 (crc16 (frameBody code payload serial)) ++ endMarker := by
  simp only [frameBytes, frameBody_eq, List.append_assoc]

theorem frameBytes_getD_length :
    (frameBytes code payload serial).getD 2 0 = BitVec.ofNat 8 (payload.length + 5) := by
  rw [frameBytes_eq_fields]
  rfl

theorem frameBytes_getD_code : (frameBytes code payload serial).getD 3 0 = code := by
  rw [frameBytes_eq_fields]
  rfl

theorem frameBytes_slice_start : slice (frameBytes code payload serial) 0 2 = startMarker := rfl

theorem frameBytes_slice_body :
    slice (frameBytes code payload serial) 2 (payload.length + 6) =
      frameBody code payload serial := by
  rw [frameBytes, List.append_assoc]
  exact slice_append_append rfl (by rw [frameBody_length]; omega)

theorem frameBytes_slice_crc :
    slice (frameBytes code payload serial) (payload.length + 6) (payload.length + 8) =
      putU16 (crc16 (frameBody code payload serial)) :=
  slice_append_append (by simp [frameBody_length, startMarker]) rfl

theorem frameBytes_slice_end :
    slice (frameBytes code payload serial) (payload.length + 8) (payload.length + 10) =
      endMarker := by
  rw [frameBytes, ← List.append_nil endMarker, ← List.append_assoc]
  exact slice_append_append (by simp [frameBody_length, startMarker]) (by simp [endMarker])

theorem frameBytes_slice_payload_serial :
    slice (frameBytes code payload serial) 4 (payload.length + 6) = payload ++ putU16 serial := by
  rw [frameBytes_eq_fields, List.append_assoc]
  exact slice_append_append rfl (by rw [List.length_append, putU16_length]; omega)

end Parts

/-! ### The checks of PARSE_FRAME (42_binary_frame.md rule R156) -/

/-- What PARSE_FRAME answers of a byte string that passes its checks: code, payload length, payload,
serial and CRC. -/
def parsedFields (fr : Bytes) : Bytes :=
  [fr.getD 3 0] ++ be 1 (fr.length - 10) ++ slice fr 4 (fr.length - 2)

theorem parsedFields_length {fr : Bytes} (h : 10 ≤ fr.length) :
    (parsedFields fr).length = fr.length - 4 := by
  simp only [parsedFields, List.length_append, List.length_singleton, be_length,
    slice_length (Nat.sub_le _ _)]
  omega

theorem parsedFields_frameBytes (code : Byte) (payload : Bytes) (serial : Word16) :
    parsedFields (frameBytes code payload serial) =
      [code] ++ be 1 payload.length ++ payload ++ putU16 serial ++
        putU16 (crc16 (frameBody code payload serial)) := by
  rw [parsedFields, frameBytes_getD_code, frameBytes_length, Nat.add_sub_cancel, ←
    frameBytes_slice_crc, List.append_assoc _ payload, ← frameBytes_slice_payload_serial code,
    List.append_assoc _ (slice _ _ _), slice_append_slice _ (by omega) (by omega)]
  rfl

/-- The checks in their order, with the offsets counted from the end of the byte string: where the
length byte agrees with the size, the two counts are the same. -/
theorem parsedFrame_eq (fr : Bytes) : parsedFrame fr =
    if fr.length < 10 then .error (.frameError .tooShort)
    else if slice fr 0 2 ≠ startMarker then .error (.frameError .startMarker)
    else if (fr.getD 2 0).toNat < 5 ∨ fr.length ≠ (fr.getD 2 0).toNat + 5 then
      .error (.frameError .lengthByte)
    else if slice fr (fr.length - 2) fr.length ≠ endMarker then .error (.frameError .endMarker)
    else if putU16 (crc16 (slice fr 2 (fr.length - 4))) ≠
        slice fr (fr.length - 4) (fr.length - 2) then .error .checksumError
    else .ok (parsedFields fr) := by
  simp only [parsedFrame, bne_iff_ne, Bool.or_eq_true, decide_eq_true_eq]
  refine ite_congr rfl (fun _ => rfl) fun hsize => ?_
  refine ite_congr rfl (fun _ => rfl) fun _ => ?_
  refine ite_congr rfl (fun _ => rfl) fun hlength => ?_
  refine ite_congr rfl (fun _ => rfl) fun _ => ?_
  generalize (fr.getD 2 0).toNat = len at hlength
  have hbody : len + 1 = fr.length - 4 := by omega
  have hcrc : len + 3 = fr.length - 2 := by omega
  have hpayload : len - 5 = fr.length - 10 := by omega
  have hserial : 6 + (fr.length - 10) = fr.length - 4 := by omega
  have hfields : 8 + (fr.length - 10) = fr.length - 2 := by omega
  rw [hbody, hcrc, hpayload, hserial, hfields]
  refine ite_congr (propext (not_congr (toNat_eq_fromBe_iff ?_))) (fun _ => rfl) fun _ => ?_
  · rw [slice_length (by omega)]
    omega
  · rw [List.append_assoc, slice_append_slice fr (by omega) (by omega), List.append_assoc,
      slice_append_slice fr (by omega) (by omega), parsedFields]

/-- The checks of PARSE_FRAME, as properties of the byte string. -/
structure PassesChecks (fr : Bytes) : Prop where
  size : 10 ≤ fr.length
  start : slice fr 0 2 = startMarker
  length : fr.length = (fr.getD 2 0).toNat + 5
  stop : slice fr (fr.length - 2) fr.length = endMarker
  crc : putU16 (crc16 (slice fr 2 (fr.length - 4))) = slice fr (fr.length - 4) (fr.length - 2)

theorem parsedFrame_of_passesChecks {fr : Bytes} (h : PassesChecks fr) :
    parsedFrame fr = .ok (parsedFields fr) := by
  obtain ⟨hsize, hstart, hlength, hstop, hcrc⟩ := h
  rw [parsedFrame_eq, if_neg (by omega), if_neg (not_not.mpr hstart), if_neg (by omega),
    if_neg (not_not.mpr hstop), if_neg (not_not.mpr hcrc)]

theorem passesChecks_of_parsedFrame_ok {fr result : Bytes} (h : parsedFrame fr = .ok result) :
    PassesChecks fr := by
  rw [parsedFrame_eq] at h
  split_ifs at h with hsize hstart hlength hstop hcrc
  exact ⟨by omega, not_not.mp hstart, by omega, not_not.mp hstop, not_not.mp hcrc⟩

theorem frameBytes_passesChecks {payload : Bytes} (h : payload.length ≤ 250) (code : Byte)
    (serial : Word16) : PassesChecks (frameBytes code payload serial) := by
  have hsize := frameBytes_length code payload serial
  refine ⟨by omega, frameBytes_slice_start code payload serial, ?_, ?_, ?_⟩
  · rw [hsize, frameBytes_getD_length, BitVec.toNat_ofNat]
    omega
  · rw [hsize]
    exact frameBytes_slice_end code payload serial
  · rw [hsize]
    exact (congrArg (putU16 <| crc16 ·) (frameBytes_slice_body code payload serial)).trans
      (frameBytes_slice_crc code payload serial).symm

/-- Byte strings that pass the checks are built frames, of the code, the payload and the serial found
in them. -/
theorem eq_frameBytes_of_passesChecks {fr : Bytes} (h : PassesChecks fr) :
    ∃ code payload serial, payload.length ≤ 250 ∧ fr = frameBytes code payload serial := by
  obtain ⟨hsize, hstart, hlength, hstop, hcrc⟩ := h
  have hbyte := (fr.getD 2 0).isLt
  have hpayload : (slice fr 4 (fr.length - 6)).length = fr.length - 10 := by
    rw [slice_length (by omega)]
    omega
  obtain ⟨serial, hserial⟩ : ∃ serial, putU16 serial = slice fr (fr.length - 6) (fr.length - 4) :=
    exists_putU16_eq (by rw [slice_length (by omega)]; omega)
  have hlen : BitVec.ofNat 8 (fr.length - 10 + 5) = fr.getD 2 0 := by
    rw [show fr.length - 10 + 5 = (fr.getD 2 0).toNat by omega, BitVec.ofNat_toNat,
      BitVec.setWidth_eq]
  have hbody : frameBody (fr.getD 3 0) (slice fr 4 (fr.length - 6)) serial =
      slice fr 2 (fr.length - 4) := by
    rw [frameBody_eq, hpayload, hlen, hserial, ← slice_eq_pair (b := 4) rfl (by omega),
      slice_append_slice fr (by omega) (by omega), slice_append_slice fr (by omega) (by omega)]
  refine ⟨fr.getD 3 0, slice fr 4 (fr.length - 6), serial, by omega, ?_⟩
  rw [frameBytes, hbody, hcrc, ← hstart, ← hstop, slice_append_slice fr (by omega) (by omega),
    slice_append_slice fr (by omega) (by omega), slice_append_slice fr (by omega) (by omega),
    slice_zero_length]

/-! ### Answers (30_encoding.md rule R61; 60_exceptions.md rule R252) -/

theorem answerPure_ok (s : State) {result : Bytes} (h : result.length ≤ resultLimit) :
    answerPure s (.ok result) = .next (State.answered s.serial (okResponse result)) :=
  congrArg Host.Outcome.next (finishPure_ok s h)

/-- A check of a command is answered by a check of the response. -/
theorem answerPure_ite {s : State} {c d : Prop} [Decidable c] [Decidable d]
    {r r' : Except CommandError Bytes} {bytes bytes' : Bytes} (hcd : c ↔ d)
    (hthen : answerPure s r = .next (State.answered s.serial bytes))
    (helse : ¬ c → answerPure s r' = .next (State.answered s.serial bytes')) :
    answerPure s (if c then r else r') =
      .next (State.answered s.serial (if d then bytes else bytes')) := by
  by_cases hc : c
  · rw [if_pos hc, if_pos (hcd.mp hc), hthen]
  · rw [if_neg hc, if_neg (hcd.not.mp hc), helse hc]

theorem statusCode_ne_zero (e : CommandError) : statusCode e ≠ 0x00 := by
  cases e with
  | frameError reason => simp [statusCode]
  | _ => decide

/-- Only a result is answered with status OK. -/
theorem exists_ok_of_answerPure {s : State} {r : Except CommandError Bytes} {n : Word16}
    {result : Bytes} (h : answerPure s r = .next (State.answered n (okResponse result))) :
    ∃ result', r = .ok result' := by
  cases r with
  | ok result' => exact ⟨result', rfl⟩
  | error e =>
    have hresponse := congrArg State.response (Host.Outcome.next.inj h)
    have hstatus := congrArg List.head? (Option.some.inj hresponse)
    exact absurd (Option.some.inj hstatus) (statusCode_ne_zero e)

/-! ### PARSE_FRAME (42_binary_frame.md rule R156) -/

theorem exec_parseFrame (fr : Bytes) (s : State) :
    exec (.parseFrame fr) s = answerPure s (parsedFrame fr) := rfl

theorem exec_parseFrame_of_passesChecks {fr : Bytes} (h : PassesChecks fr) (s : State) :
    exec (.parseFrame fr) s =
      .next (State.answered s.serial (okResponse (parsedFields fr))) := by
  have hbyte := (fr.getD 2 0).isLt
  have hlimit : (parsedFields fr).length ≤ resultLimit := by
    rw [parsedFields_length h.size, h.length, resultLimit]
    omega
  rw [exec_parseFrame, parsedFrame_of_passesChecks h, answerPure_ok s hlimit]

/-! ### The commands that build a frame (42_binary_frame.md rules R150, R151, R153) -/

theorem answerPure_frame_of_le (s : State) {payload : Bytes} (h : payload.length ≤ 250)
    (code : Byte) (serial : Word16) :
    answerPure s (frame code payload serial) =
      .next (State.answered s.serial (okResponse (frameBytes code payload serial))) := by
  rw [frame_of_le h, answerPure_ok s (by rw [frameBytes_length, resultLimit]; omega)]

/-- The response that carries a frame, byte for byte (42_binary_frame.md rule R157). -/
theorem okResponse_frameBytes (code : Byte) (payload : Bytes) (serial : Word16) {len size : ℕ}
    (hlen : payload.length + 5 = len) (hsize : payload.length + 10 = size) :
    okResponse (frameBytes code payload serial) =
      [0x00] ++ be 2 size ++ ([0x78, 0x78] ++
        ([BitVec.ofNat 8 len, code] ++ payload ++ be 2 serial.toNat) ++
        be 2 (crc16 ([BitVec.ofNat 8 len, code] ++ payload ++ be 2 serial.toNat)).toNat ++
        [0x0D, 0x0A]) := by
  rw [okResponse, responseBytes, frameBytes_length, frameBytes, frameBody_eq, hlen, hsize]
  rfl

theorem exec_buildFrame (code : Byte) (payload : Bytes) (serial : Word16) (s : State) :
    exec (.buildFrame code payload serial) s = answerPure s (frame code payload serial) := rfl

theorem exec_buildLogin {id bcd : Bytes} (h : bcd8 id = .ok bcd) (serial : Word16) (s : State) :
    exec (.buildLogin id serial) s = answerPure s (frame loginCode bcd serial) := by
  have hexec : exec (.buildLogin id serial) s =
      answerPure s (bcd8 id >>= fun payload => frame loginCode payload serial) := rfl
  rw [hexec, h]
  rfl

theorem exec_buildLocation (r : LocRec) (s : State) :
    exec (.buildLocation r) s = answerPure s (locationFrame Config.params r) := rfl

theorem locationFrame_of_reserved (P : Params) {r : LocRec}
    (h : reservedBitsClear r.flags = false) : locationFrame P r = .error .malformedCommand := by
  rw [locationFrame, if_pos (flagsReserved_eq_true h)]
  rfl

theorem locationFrame_of_clear (P : Params) {r : LocRec} (h : reservedBitsClear r.flags = true) :
    locationFrame P r = (do
      let la ← coord r.lat latLimit
      let lo ← coord r.lon lonLimit
      let cs ← courseStatus r.course.toInt r.flags
      frame locationCode (locationPayload P r la lo cs) r.serial) := by
  rw [locationFrame, if_neg (by simp [flagsReserved_eq_false h])]

theorem locationFrame_of_encoded (P : Params) {r : LocRec} {la lo : ℕ} {cs : Word16}
    (hclear : reservedBitsClear r.flags = true) (hla : coord r.lat latLimit = .ok la)
    (hlo : coord r.lon lonLimit = .ok lo) (hcs : courseStatus r.course.toInt r.flags = .ok cs) :
    locationFrame P r = frame locationCode (locationPayload P r la lo cs) r.serial := by
  rw [locationFrame_of_clear P hclear, hla, hlo, hcs]
  simp only [bind, Except.bind]

theorem locationFrame_of_out_of_range (P : Params) {r : LocRec}
    (hclear : reservedBitsClear r.flags = true)
    (hrange : ¬ (WithinLimit r.lat 90 ∧ WithinLimit r.lon 180)) :
    locationFrame P r = .error .coordRange := by
  rw [locationFrame_of_clear P hclear]
  by_cases hlat : WithinLimit r.lat 90
  · obtain ⟨la, hla, -⟩ := coord_of_withinLimit (limit := latLimit) hlat
    have hlon : ¬ WithinLimit r.lon 180 := fun h => hrange ⟨hlat, h⟩
    rw [hla, coord_of_not_withinLimit (limit := lonLimit) hlon]
    rfl
  · rw [coord_of_not_withinLimit (limit := latLimit) hlat]
    rfl

/-- The payload with the year's byte written out (42_binary_frame.md rule R154). -/
theorem locationPayload_eq (P : Params) (r : LocRec) (la lo : ℕ) (cs : Word16) :
    locationPayload P r la lo cs =
      [BitVec.ofNat 8 (r.year.toNat % 100), r.month, r.day, r.hour, r.minute, r.second, r.gps] ++
        be 4 la ++ be 4 lo ++ [r.speed] ++ putU16 cs ++ putU16 r.mcc ++ [r.mnc] ++ putU16 r.lac ++
        be P.cellIdWidth r.cell.toNat := by
  rw [locationPayload, be_one]
  rfl

theorem locationPayload_length (P : Params) (r : LocRec) (la lo : ℕ) (cs : Word16) :
    (locationPayload P r la lo cs).length = 23 + P.cellIdWidth := by
  simp only [locationPayload, List.length_append, List.length_cons, List.length_nil, be_length,
    putU16_length]

/-- CELL_ID_WIDTH is 3 or 4 (42_binary_frame.md rule R155). -/
theorem cellIdWidth_cases : Config.params.cellIdWidth = 3 ∨ Config.params.cellIdWidth = 4 :=
  ((legalParams_iff _).mp (legalParams_ofChoices ..)).1

/-- 352812192008961, the identity of the scenario (42_binary_frame.md rule R152). -/
def scenarioIdentity : Bytes :=
  [0x33, 0x35, 0x32, 0x38, 0x31, 0x32, 0x31, 0x39, 0x32, 0x30, 0x30, 0x38, 0x39, 0x36, 0x31]

end Sys2Proof.Machine

open Sys2Proof Sys2Proof.Machine

/-- Settles O31: a built frame passes the checks (`frameBytes_passesChecks`), and the parts the
checker answers are the slices it was built of. -/
theorem frameRoundTrip : Obligations.FrameRoundTrip := by
  intro code payload serial s hpayload
  have hsize := frameBytes_length code payload serial
  have hchecks := frameBytes_passesChecks hpayload code serial
  have hcrc : ((frameBytes code payload serial).drop (payload.length + 6)).take 2 =
      putU16 (crc16 (frameBody code payload serial)) := by
    rw [← slice_eq_take_drop rfl, frameBytes_slice_crc]
  have hbody : ((frameBytes code payload serial).drop 2).take (payload.length + 4) =
      frameBody code payload serial := by
    rw [← slice_eq_take_drop (Nat.add_comm _ _), frameBytes_slice_body]
  refine ⟨frameBytes code payload serial, ?_, hchecks.length.symm, ?_, ?_⟩
  · rw [exec_buildFrame, answerPure_frame_of_le s hpayload]
  · rw [hsize, show payload.length + 10 - 4 = payload.length + 6 from rfl, hcrc,
      show payload.length + 10 - 6 = payload.length + 4 from rfl, hbody, fromBe_putU16]
  · rw [exec_parseFrame_of_passesChecks hchecks, parsedFields_frameBytes, hsize, ← hcrc]
    rfl

/-- Settles O32: what passes the checks is a built frame (`eq_frameBytes_of_passesChecks`), and a
built frame passes them (`frameBytes_passesChecks`). -/
theorem parseFrameAcceptsExactlyFrames : Obligations.ParseFrameAcceptsExactlyFrames := by
  intro fr s
  constructor
  · rintro ⟨result, hexec⟩
    obtain ⟨_, hok⟩ := exists_ok_of_answerPure (r := parsedFrame fr) hexec
    obtain ⟨code, payload, serial, hpayload, rfl⟩ :=
      eq_frameBytes_of_passesChecks (passesChecks_of_parsedFrame_ok hok)
    exact ⟨code, payload, serial, hpayload, frame_of_le hpayload code serial⟩
  · rintro ⟨code, payload, serial, hpayload, hframe⟩
    obtain rfl := Except.ok.inj ((frame_of_le hpayload code serial).symm.trans hframe)
    exact ⟨_, exec_parseFrame_of_passesChecks (frameBytes_passesChecks hpayload code serial) s⟩

/-- Settles O33, check by check (`parsedFrame_eq`, `answerPure_ite`): the statement reads single bytes
where the checks read slices. -/
theorem parseFrameChecksInOrder : Obligations.ParseFrameChecksInOrder := by
  intro fr s
  rw [exec_parseFrame, parsedFrame_eq]
  refine answerPure_ite Iff.rfl rfl fun hsize => ?_
  refine answerPure_ite ?_ rfl fun _ => ?_
  · rw [slice_eq_pair rfl (by omega), startMarker]
    simp [← not_and_or]
  refine answerPure_ite Iff.rfl rfl fun hlength => ?_
  refine answerPure_ite ?_ rfl fun _ => ?_
  · rw [slice_eq_pair (by omega) le_rfl, show fr.length - 2 + 1 = fr.length - 1 by omega, endMarker]
    simp [← not_and_or]
  have hbody : slice fr 2 (fr.length - 4) = (fr.drop 2).take (fr.length - 6) :=
    slice_eq_take_drop (by omega) fr
  have hcrc : slice fr (fr.length - 4) (fr.length - 2) =
      [fr.getD (fr.length - 4) 0, fr.getD (fr.length - 3) 0] := by
    rw [slice_eq_pair (by omega) (by omega), show fr.length - 4 + 1 = fr.length - 3 by omega]
  have hfields : slice fr 4 (fr.length - 2) = (fr.drop 4).take (fr.length - 6) :=
    slice_eq_take_drop (by omega) fr
  rw [hbody, hcrc]
  refine answerPure_ite putU16_eq_pair_iff.not rfl fun _ => ?_
  have hbyte := (fr.getD 2 0).isLt
  have hanswer := parsedFields_length (fr := fr) (by omega)
  rw [answerPure_ok s (by rw [hanswer, resultLimit]; omega), okResponse, responseBytes, hanswer,
    parsedFields, hfields, be_one]
  rfl

/-- Settles O34: the frame around the 8 bytes of `bcd8_of_valid`. -/
theorem buildLoginCommand : Obligations.BuildLoginCommand := by
  intro id serial s hlength hdigits
  obtain ⟨bcd, hok, hbcd, hunpack⟩ := bcd8_of_valid hlength hdigits
  refine ⟨bcd, hbcd, hunpack, ?_⟩
  rw [exec_buildLogin hok, answerPure_frame_of_le s (by omega),
    okResponse_frameBytes (len := 13) (size := 18) _ _ _ (by rw [hbcd]) (by rw [hbcd])]
  simp only [List.append_assoc]
  rfl

/-- Settles O36: without reserved bits and with both coordinates in range every field is encoded
(`locationFrame_of_encoded`), and the payload, 23 bytes and the cell identifier, fits a frame. -/
theorem buildLocationCommand : Obligations.BuildLocationCommand := by
  intro r s hclear hlat hlon
  obtain ⟨la, hla, hlaNear, -⟩ := coord_of_withinLimit (limit := latLimit) hlat
  obtain ⟨lo, hlo, hloNear, -⟩ := coord_of_withinLimit (limit := lonLimit) hlon
  obtain ⟨cs, hcs, hcsValue⟩ := courseStatus_of_clear r.course.toInt hclear
  have hpayload := locationPayload_length Config.params r la lo cs
  have hwidth := cellIdWidth_cases
  refine ⟨la, lo, cs, be Config.params.cellIdWidth r.cell.toNat, _, hlaNear, hloNear, hcsValue, ?_,
    rfl, ?_⟩
  · rcases hwidth with hw | hw
    · exact .inl ⟨hw, by rw [hw]; rfl⟩
    · exact .inr ⟨hw, by rw [hw]⟩
  · rw [exec_buildLocation, locationFrame_of_encoded _ hclear hla hlo hcs,
      answerPure_frame_of_le s (by omega), be_length,
      okResponse_frameBytes (len := 28 + Config.params.cellIdWidth)
        (size := 33 + Config.params.cellIdWidth) _ _ _ (by omega) (by omega), locationPayload_eq]
    rfl

/-- Settles O37: reserved bits are refused before any coordinate is read
(`locationFrame_of_reserved`), and of the coordinates the first one out of range says the error. -/
theorem buildLocationErrors : Obligations.BuildLocationErrors := fun _ s => ⟨
    fun hreserved => congrArg (answerPure s) (locationFrame_of_reserved _ hreserved),
    fun hclear hrange => congrArg (answerPure s) (locationFrame_of_out_of_range _ hclear hrange)⟩

/-- Settles O30: `frame` on the two sides of the payload limit. -/
theorem buildFrameCommand : Obligations.BuildFrameCommand := by
  intro code payload serial s
  refine ⟨fun hle => ?_, fun hgt => ?_⟩
  · rw [exec_buildFrame, answerPure_frame_of_le s hle,
      okResponse_frameBytes _ _ _ rfl (Nat.add_comm _ 10)]
    simp only [List.append_assoc]
  · rw [exec_buildFrame, frame_of_gt hgt]
    rfl

/-- Settles O35: the step runs the decoded command (`decode_encode`), whose frame is evaluated, the
CRC included. -/
theorem loginScenarioFrame : Obligations.LoginScenarioFrame := by
  intro n
  have hdecode := decode_encode (i := .buildLogin scenarioIdentity 1) rfl
  have hbcd : bcd8 scenarioIdentity = .ok [0x03, 0x52, 0x81, 0x21, 0x92, 0x00, 0x89, 0x61] := rfl
  refine (step_holding_of_decode_ok hdecode n).trans ?_
  rw [exec_buildLogin hbcd, answerPure_frame_of_le _ (by decide),
    okResponse_frameBytes _ _ _ rfl rfl]
  simp [crc16, crcByte, crcRounds, crcRound, crcPoly, be, loginCode]
end

section
/-! PROOF. The statements about 43_serial_counter.md. What each of the three commands leaves and
answers is said once for every state; a run of SERIAL_NEXT commands then has a closed form
(`transactAll_replicate_serialNext`), on which the increment law and the wrap rest. -/

namespace Sys2Proof.Machine

/-! ### The increment (43_serial_counter.md rule R183) -/

theorem toNat_add_ofNat (n : Word16) (k : ℕ) :
    (n + BitVec.ofNat 16 k).toNat = (n.toNat + k) % 65536 := by
  simp [BitVec.toNat_add]

theorem nextSerial_toNat (n : Word16) : (nextSerial n).toNat = (n.toNat + 1) % 65536 :=
  toNat_add_ofNat n 1

theorem nextSerial_add_ofNat (n : Word16) (k : ℕ) :
    nextSerial n + BitVec.ofNat 16 k = n + BitVec.ofNat 16 (k + 1) := by
  rw [Nat.add_comm k, BitVec.ofNat_add, ← BitVec.add_assoc]
  rfl

/-! ### What the commands leave and answer (43_serial_counter.md rules R180 to R182) -/

theorem exec_serialRead (s : State) :
    exec .serialRead s =
      .next (State.answered s.serial ([0x00, 0x00, 0x02] ++ putU16 s.serial)) :=
  answerPure_ok_of_length s (putU16_length s.serial) (by decide)

theorem exec_serialNext (s : State) :
    exec .serialNext s =
      .next (State.answered (nextSerial s.serial) ([0x00, 0x00, 0x02] ++ putU16 s.serial)) := by
  have hlimit : (putU16 s.serial).length ≤ resultLimit := by
    rw [putU16_length]
    decide
  rw [← okResponse_putU16]
  exact congrArg Host.Outcome.next (finish_ok s hlimit)

theorem step_holding_serialRead (n : Word16) :
    step (State.holding n [0x40]) =
      .next (State.answered n ([0x00, 0x00, 0x02] ++ putU16 n)) :=
  (step_holding_of_decode_ok (decode_encode (i := .serialRead) rfl) n).trans (exec_serialRead _)

theorem step_holding_serialNext (n : Word16) :
    step (State.holding n [0x41]) =
      .next (State.answered (nextSerial n) ([0x00, 0x00, 0x02] ++ putU16 n)) :=
  (step_holding_of_decode_ok (decode_encode (i := .serialNext) rfl) n).trans (exec_serialNext _)

theorem transact_serialNext (n : Word16) :
    transact (State.idle n) [0x41] =
      some ([0x00, 0x00, 0x02] ++ putU16 n, State.idle (nextSerial n)) :=
  transact_of_step (step_holding_serialNext n)

/-- The two operand bytes of SERIAL_LOAD are the value, big-endian. -/
theorem decode_serialLoad (hi lo : Byte) :
    decode [0x42, hi, lo] = .ok (.serialLoad (hi ++ lo)) := by
  have hdecode := decode_encode (i := .serialLoad (hi ++ lo)) rfl
  rwa [encode, putU16_append_bytes] at hdecode

/-- What the opcode of SERIAL_LOAD decodes is followed by one u16 and nothing more. -/
theorem operands_length_of_decode_serialLoad {operands : Bytes} {i : Instr}
    (h : decode (0x42 :: operands) = .ok i) : operands.length = 2 := by
  obtain ⟨_, _, ⟨⟩, -, htake⟩ := decode_ok h
  obtain ⟨value, rest, hvalue, ⟨⟩⟩ := taken_of_bind htake
  rw [takeU16_some hvalue, List.append_nil, putU16_length]

/-- A command without operands is malformed when a byte follows its opcode. -/
theorem step_holding_stray_byte {op : Byte} {i : Instr} (hassigned : opcodeAssigned op = true)
    (htake : ∀ operands, takeCommand op operands = some (i, operands)) (n : Word16) (b : Byte)
    (rest : Bytes) :
    step (State.holding n (op :: b :: rest)) = .next (State.answered n [0x08, 0x00, 0x00]) :=
  step_holding_malformed
    (decode_of_left_over hassigned (htake (b :: rest)) (List.cons_ne_nil b rest)) n

/-! ### Runs of SERIAL_NEXT (43_serial_counter.md rule R183) -/

/-- A run of SERIAL_NEXT commands answers the values that follow one another from the first. -/
theorem transactAll_replicate_serialNext (n : Word16) (k : ℕ) :
    transactAll (State.idle n) (List.replicate k [0x41]) =
      some ((List.range k).map fun j => [0x00, 0x00, 0x02] ++ putU16 (n + BitVec.ofNat 16 j),
        State.idle (n + BitVec.ofNat 16 k)) := by
  induction k generalizing n with
  | zero => simp
  | succ k ih =>
    rw [List.replicate_succ, transactAll_cons (transact_serialNext n), ih, List.range_succ_eq_map]
    simp [nextSerial_add_ofNat, Function.comp_def]

end Sys2Proof.Machine

open Sys2Proof Sys2Proof.Machine

/-- Settles O42: the closed form of the run (`transactAll_replicate_serialNext`), its values read as
numbers. -/
theorem serialIncrementLaw : Obligations.SerialIncrementLaw := by
  intro n k
  refine ⟨_, _, transactAll_replicate_serialNext n k, toNat_add_ofNat n k, by simp, fun j hj => ?_⟩
  simp [hj, putU16]

/-- Settles O39: `exec_serialRead`, and `step_holding_stray_byte` for the error. -/
theorem serialReadCommand : Obligations.SerialReadCommand :=
  ⟨exec_serialRead, step_holding_serialRead,
    step_holding_stray_byte rfl fun _ => rfl,
    transact_of_step (step_holding_serialRead 1)⟩

/-- Settles O40: `exec_serialNext`, and `step_holding_stray_byte` for the error; the wrap is the run
of two commands from 65535. -/
theorem serialNextCommand : Obligations.SerialNextCommand :=
  ⟨fun s => ⟨_, nextSerial_toNat s.serial, exec_serialNext s⟩,
    fun n => ⟨_, nextSerial_toNat n, step_holding_serialNext n⟩,
    step_holding_stray_byte rfl fun _ => rfl,
    transactAll_replicate_serialNext 65535 2,
    transact_serialNext 1⟩

/-- Settles O41: two operand bytes are read as the value (`decode_serialLoad`), and no other number
of them decodes (`operands_length_of_decode_serialLoad`). -/
theorem serialLoadCommand : Obligations.SerialLoadCommand := by
  refine ⟨exec_serialLoad, fun n hi lo => ?_, fun n operands hlength => ?_⟩
  · exact (step_holding_of_decode_ok (decode_serialLoad hi lo) n).trans (exec_serialLoad _ _)
  · obtain ⟨i, hi⟩ | hmalformed := decode_assigned_cases (op := 0x42) rfl operands
    · exact absurd (operands_length_of_decode_serialLoad hi) hlength
    · exact step_holding_malformed hmalformed n
end

section
/-! PROOF. The statements about the field formats of 44_text_frame.md (R200 to R210). Each format
has one form of its text (`paddedDec`, `threeParts`, `fixedText_eq`) and one condition under which
it refuses; what every format answers is legal and short (`formatField_ok_fits`). -/

namespace Sys2Proof.Machine

/-! ### Legal text (44_text_frame.md rule R200) -/

theorem legalText_iff_all (s : Bytes) : LegalText s ↔ s.all legalTextByte = true := by
  simp [LegalText, legalTextByte, and_assoc]

theorem legalText_append {s t : Bytes} : LegalText (s ++ t) ↔ LegalText s ∧ LegalText t :=
  List.forall_mem_append

theorem AllDigits.legalText {s : Bytes} (h : AllDigits s) : LegalText s := by
  intro b hb
  have hdigit := h b hb
  refine ⟨by omega, by omega, ?_⟩
  rintro rfl
  exact absurd hdigit (by decide)

/-! ### Padded digits (00_scope.md rule R13; 44_text_frame.md rule R202) -/

theorem dec_length_le_iff {w : ℕ} (hw : 0 < w) (v : ℕ) : (dec v).length ≤ w ↔ v < 10 ^ w := by
  induction v using dec_induction generalizing w with
  | digit v h =>
    have hpow : 10 ^ 1 ≤ 10 ^ w := Nat.pow_le_pow_right (by omega) hw
    rw [dec_of_lt h, List.length_singleton]
    omega
  | more v h ih =>
    obtain ⟨w, rfl⟩ := Nat.exists_eq_add_one.mpr hw
    rw [dec_of_ge h, List.length_append, List.length_singleton, Nat.add_le_add_iff_right, pow_succ]
    rcases Nat.eq_zero_or_pos w with rfl | hpos
    · have hne := List.length_pos_iff.mpr (dec_ne_nil (v / 10))
      omega
    · rw [ih hpos, Nat.div_lt_iff_lt_mul (by omega)]

theorem dec_legalText (v : ℕ) : LegalText (dec v) := (dec_allDigits v).legalText

/-- A positive number's spelling has a digit that is not 0: its first. -/
theorem exists_nonzero_digit_of_pos {v : ℕ} (hv : 0 < v) :
    ∃ b ∈ dec v, 0x31 ≤ b.toNat ∧ b.toNat ≤ 0x39 := by
  obtain ⟨b, rest, hdec⟩ := List.exists_cons_of_ne_nil (dec_ne_nil v)
  have hmem : b ∈ dec v := hdec ▸ List.mem_cons_self
  have hzero : b.toNat ≠ 0x30 := by
    intro h
    have hb : b = 0x30 := BitVec.eq_of_toNat_eq h
    exact dec_head?_ne_zero hv (by rw [hdec, hb, List.head?_cons])
  have hdigit := dec_allDigits v b hmem
  exact ⟨b, hmem, by omega, hdigit.2⟩

theorem decimalValue_append (s t : Bytes) :
    decimalValue (s ++ t) = decimalValue s * 10 ^ t.length + decimalValue t := by
  induction t using List.reverseRecOn with
  | nil => simp [decimalValue]
  | append_singleton t b ih =>
    have hsnoc (u : Bytes) : decimalValue (u ++ [b]) = decimalValue u * 10 + (b.toNat - 0x30) := by
      simp [decimalValue]
    rw [← List.append_assoc, hsnoc, hsnoc, ih, List.length_append, List.length_singleton]
    ring

theorem zeroDigits_length (n : ℕ) : (zeroDigits n).length = n := List.length_replicate

theorem zeroDigits_allDigits (n : ℕ) : AllDigits (zeroDigits n) := by
  intro b hb
  rw [List.eq_of_mem_replicate hb]
  decide

theorem decimalValue_zeroDigits (n : ℕ) : decimalValue (zeroDigits n) = 0 := by
  induction n with
  | zero => rfl
  | succ n ih =>
    have hsucc : zeroDigits (n + 1) = zeroDigits n ++ [digitByte 0] := List.replicate_succ'
    rw [hsucc, decimalValue_append_digitByte _ (by omega), ih]

/-- `v` with leading zeros, in `w` digits where it fits (44_text_frame.md rule R202). -/
def paddedDec (w v : ℕ) : Bytes := zeroDigits (w - (dec v).length) ++ dec v

theorem paddedDec_length {w v : ℕ} (hw : 0 < w) (hv : v < 10 ^ w) : (paddedDec w v).length = w := by
  have hfits := (dec_length_le_iff hw v).mpr hv
  rw [paddedDec, List.length_append, zeroDigits_length]
  omega

theorem paddedDec_allDigits (w v : ℕ) : AllDigits (paddedDec w v) :=
  allDigits_append.mpr ⟨zeroDigits_allDigits _, dec_allDigits v⟩

theorem decimalValue_paddedDec (w v : ℕ) : decimalValue (paddedDec w v) = v := by
  rw [paddedDec, decimalValue_append, decimalValue_zeroDigits, decimalValue_dec, zero_mul, zero_add]

/-! ### STR, UDEC, SDEC and FLAG (44_text_frame.md rules R201 to R203, R207) -/

theorem fmtStr_of_legal {s : Bytes} (h : LegalText s) : fmtStr s = .ok s := by
  obtain ⟨-, hok⟩ | ⟨hbad, -⟩ := fmtStr_cases s
  · exact hok
  · exact absurd ((legalText_iff_all s).mp h) (by simp [hbad])

theorem fmtStr_of_illegal {s : Bytes} (h : ¬ LegalText s) : fmtStr s = .error .fieldChar := by
  obtain ⟨hlegal, -⟩ | ⟨-, herror⟩ := fmtStr_cases s
  · exact absurd ((legalText_iff_all s).mpr hlegal) h
  · exact herror

theorem fmtUdec_zero (v : ℕ) : fmtUdec 0 v = .ok (dec v) := if_pos rfl

theorem fmtUdec_of_lt {w v : ℕ} (hw : 0 < w) (hv : v < 10 ^ w) :
    fmtUdec w v = .ok (paddedDec w v) := by
  have hfits := (dec_length_le_iff hw v).mpr hv
  rw [fmtUdec, if_neg (by omega), if_neg (by omega), paddedDec]

theorem fmtUdec_of_ge {w v : ℕ} (hw : 0 < w) (hv : 10 ^ w ≤ v) :
    fmtUdec w v = .error .fieldRange := by
  have hwide := (dec_length_le_iff hw v).not.mpr (by omega)
  rw [fmtUdec, if_neg (by omega), if_pos (by omega)]

theorem fmtSdec_eq (v : ℤ) :
    fmtSdec v = if v < 0 then [0x2D] ++ dec (-v).toNat else dec v.toNat := by
  rw [fmtSdec]
  split_ifs with hneg
  · rw [show v.natAbs = (-v).toNat by omega]
    rfl
  · rw [show v.natAbs = v.toNat by omega]

theorem fmtFlag_eq (b : Byte) :
    fmtFlag b = if b.toNat = 0 then .ok [0x30] else if b.toNat = 1 then .ok [0x31]
      else .error .fieldRange := by
  have hnum (n : Byte) : b = n ↔ b.toNat = n.toNat := BitVec.toNat_inj.symm
  simp only [fmtFlag, hnum]
  rfl

theorem fmtFlag_of_gt {b : Byte} (h : 1 < b.toNat) : fmtFlag b = .error .fieldRange := by
  rw [fmtFlag_eq, if_neg (by omega), if_neg (by omega)]

/-- A flag in range has one digit. -/
theorem fmtFlag_of_le {b : Byte} (h : b.toNat ≤ 1) : fmtFlag b = .ok (dec b.toNat) := by
  obtain h0 | h1 := Nat.le_one_iff_eq_zero_or_eq_one.mp h
  · rw [fmtFlag_eq, h0]
    rfl
  · rw [fmtFlag_eq, h1]
    rfl

/-! ### SFIX (44_text_frame.md rule R204) -/

/-- The sign, the integer part and, after the point, the `p` fraction digits. -/
theorem fixedText_eq (p : ℕ) (q : ℤ) :
    fixedText p q = (if q < 0 then [0x2D] else []) ++ dec (q.natAbs / 10 ^ p) ++
      (if p = 0 then [] else [0x2E] ++ paddedDec p (q.natAbs % 10 ^ p)) := by
  have hfrac : q.natAbs - q.natAbs / 10 ^ p * 10 ^ p = q.natAbs % 10 ^ p := by
    rw [Nat.mod_def, Nat.mul_comm]
  simp only [fixedText, hfrac, paddedDec]
  obtain rfl | hp := Nat.eq_zero_or_pos p
  · by_cases hq : q < 0 <;> simp [hq]
  · by_cases hq : q < 0 <;> simp [hq, hp, hp.ne']

theorem fixedText_head?_eq_minus_iff (p : ℕ) (q : ℤ) :
    (fixedText p q).head? = some 0x2D ↔ q < 0 := by
  rw [fixedText_eq]
  by_cases hq : q < 0
  · simp [hq]
  · obtain ⟨b, rest, hdec⟩ := List.exists_cons_of_ne_nil (dec_ne_nil (q.natAbs / 10 ^ p))
    have hdigit := dec_allDigits _ b (hdec ▸ List.mem_cons_self)
    have hminus : b ≠ 0x2D := by
      rintro rfl
      exact absurd hdigit (by decide)
    simpa [hq, hdec] using hminus

/-- A number that is not 0 shows a digit that is not 0, before the point or after it. -/
theorem exists_nonzero_digit_fixedText (p : ℕ) {q : ℤ} (hq : q ≠ 0) :
    ∃ b ∈ fixedText p q, 0x31 ≤ b.toNat ∧ b.toNat ≤ 0x39 := by
  rw [fixedText_eq]
  have hsplit := Nat.div_add_mod q.natAbs (10 ^ p)
  rcases Nat.eq_zero_or_pos (q.natAbs / 10 ^ p) with hint | hint
  · have hfrac : 0 < q.natAbs % 10 ^ p := by
      rw [hint] at hsplit
      omega
    have hp : p ≠ 0 := by
      rintro rfl
      simp [Nat.mod_one] at hfrac
    obtain ⟨b, hb, hdigit⟩ := exists_nonzero_digit_of_pos hfrac
    exact ⟨b, by simp [hp, paddedDec, hb], hdigit⟩
  · obtain ⟨b, hb, hdigit⟩ := exists_nonzero_digit_of_pos hint
    exact ⟨b, by simp [hb], hdigit⟩

theorem fixedText_legalText (p : ℕ) (q : ℤ) : LegalText (fixedText p q) := by
  have hminus : LegalText [0x2D] := by simp [LegalText]
  have hpoint : LegalText [0x2E] := by simp [LegalText]
  have hnil : LegalText [] := by simp [LegalText]
  have hfrac := (paddedDec_allDigits p (q.natAbs % 10 ^ p)).legalText
  rw [fixedText_eq, legalText_append, legalText_append]
  refine ⟨⟨?_, dec_legalText _⟩, ?_⟩
  · split_ifs
    · exact hminus
    · exact hnil
  · split_ifs
    · exact hnil
    · exact legalText_append.mpr ⟨hpoint, hfrac⟩

theorem fixedText_length_le {p : ℕ} {q : ℤ} (hp : p ≤ 9) (hq : q.natAbs < 10 ^ 10 * 10 ^ p) :
    (fixedText p q).length ≤ 21 := by
  have hint := (dec_length_le_iff (w := 10) (by omega) (q.natAbs / 10 ^ p)).mpr
    ((Nat.div_lt_iff_lt_mul (by positivity)).mpr hq)
  have hsign : (if q < 0 then [0x2D] else [] : Bytes).length ≤ 1 := by split_ifs <;> simp
  have hfrac : (if p = 0 then [] else [0x2E] ++ paddedDec p (q.natAbs % 10 ^ p)).length ≤ 10 := by
    split_ifs with hzero
    · simp
    · rw [List.length_append, List.length_singleton,
        paddedDec_length (by omega) (Nat.mod_lt _ (by positivity))]
      omega
  rw [fixedText_eq, List.length_append, List.length_append]
  omega

/-- In range SFIX spells the exact product rounded once. -/
theorem fmtSfix_of_inRange (p : ℕ) {f : F64} (h : SfixInRange f) :
    ∃ q : ℤ, IsNearestEven (exactQ f * 10 ^ p) q ∧ fmtSfix p f = .ok (fixedText p q) := by
  obtain ⟨-, -, hok⟩ | ⟨hno, -⟩ := fmtSfix_cases p f
  · have hproduct : exactQ f * 10 ^ p = ((f64Num f * 10 ^ p : ℤ) : ℚ) / f64Den f := by
      rw [exactQ]
      push_cast
      ring
    exact ⟨_, hproduct ▸ rhe_isNearestEven _ (f64Den_pos f), hok⟩
  · obtain ⟨hfinite, hlt⟩ := (sfixInRange_iff f).mp h
    simp [hfinite, hlt] at hno

theorem fmtSfix_of_not_inRange (p : ℕ) {f : F64} (h : ¬ SfixInRange f) :
    fmtSfix p f = .error .fieldRange := by
  obtain ⟨hfinite, hlt, -⟩ | ⟨-, herror⟩ := fmtSfix_cases p f
  · exact absurd ((sfixInRange_iff f).mpr ⟨hfinite, hlt⟩) h
  · exact herror

/-- The rounded product of a value below 10 to the 9 is at most 10 to the 9 times the scale. -/
theorem natAbs_le_of_inRange {p : ℕ} {f : F64} {q : ℤ} (h : SfixInRange f)
    (hq : IsNearestEven (exactQ f * 10 ^ p) q) : q.natAbs ≤ 10 ^ 9 * 10 ^ p := by
  obtain ⟨hlow, hhigh⟩ := abs_lt.mp h.2
  have hscale : (0 : ℚ) ≤ 10 ^ p := by positivity
  have hle := hq.le_of_le (m := 10 ^ 9 * 10 ^ p) (by
    push_cast
    exact mul_le_mul_of_nonneg_right hhigh.le hscale)
  have hge := hq.ge_of_ge (m := -10 ^ 9 * 10 ^ p) (by
    push_cast
    exact mul_le_mul_of_nonneg_right hlow.le hscale)
  zify
  exact abs_le.mpr ⟨by linarith, hle⟩

/-! ### DATE8 and TIME6 (44_text_frame.md rules R205, R206) -/

/-- Three numbers written one after another, the first in `w` digits and the others in two. -/
def threeParts (w a b c : ℕ) : Bytes := paddedDec w a ++ paddedDec 2 b ++ paddedDec 2 c

theorem threeParts_length {w a b c : ℕ} (hw : 0 < w) (ha : a < 10 ^ w) (hb : b ≤ 99)
    (hc : c ≤ 99) : (threeParts w a b c).length = w + 4 := by
  rw [threeParts, List.length_append, List.length_append, paddedDec_length hw ha,
    paddedDec_length (by omega) (by omega), paddedDec_length (by omega) (by omega)]

theorem threeParts_allDigits (w a b c : ℕ) : AllDigits (threeParts w a b c) :=
  allDigits_append.mpr
    ⟨allDigits_append.mpr ⟨paddedDec_allDigits w a, paddedDec_allDigits 2 b⟩,
      paddedDec_allDigits 2 c⟩

theorem decimalValue_threeParts (w a : ℕ) {b c : ℕ} (hb : b ≤ 99) (hc : c ≤ 99) :
    decimalValue (threeParts w a b c) = a * 10000 + b * 100 + c := by
  rw [threeParts, decimalValue_append, decimalValue_append,
    paddedDec_length (by omega) (by omega), paddedDec_length (by omega) (by omega)]
  simp only [decimalValue_paddedDec]
  omega

theorem fmtDate8_of_inRange {y m d : ℕ} (hy : y ≤ 9999) (hm : m ≤ 99) (hd : d ≤ 99) :
    fmtDate8 y m d = .ok (threeParts 4 y m d) := by
  rw [fmtDate8, if_neg (by simp; omega), fmtUdec_of_lt (by omega) (by omega),
    fmtUdec_of_lt (by omega) (by omega), fmtUdec_of_lt (by omega) (by omega)]
  rfl

theorem fmtDate8_of_not_inRange {y m d : ℕ} (h : ¬ (y ≤ 9999 ∧ m ≤ 99 ∧ d ≤ 99)) :
    fmtDate8 y m d = .error .fieldRange :=
  if_pos (by simp; omega)

theorem fmtTime6_of_inRange {h mi s : ℕ} (hh : h ≤ 99) (hmi : mi ≤ 99) (hs : s ≤ 99) :
    fmtTime6 h mi s = .ok (threeParts 2 h mi s) := by
  rw [fmtTime6, if_neg (by simp; omega), fmtUdec_of_lt (by omega) (by omega),
    fmtUdec_of_lt (by omega) (by omega), fmtUdec_of_lt (by omega) (by omega)]
  rfl

theorem fmtTime6_of_not_inRange {h mi s : ℕ} (hbad : ¬ (h ≤ 99 ∧ mi ≤ 99 ∧ s ≤ 99)) :
    fmtTime6 h mi s = .error .fieldRange :=
  if_pos (by simp; omega)

/-! ### FMT_FIELD (44_text_frame.md rule R210) -/

/-- Text that a field of a record may hold, and that a str8 could carry. -/
def FitsField (g : Bytes) : Prop := LegalText g ∧ g.length ≤ 255

theorem fitsField_of_digits {g : Bytes} (hdigits : AllDigits g) (hlength : g.length ≤ 255) :
    FitsField g :=
  ⟨hdigits.legalText, hlength⟩

theorem fitsField_dec {v : ℕ} (h : v < 10 ^ 10) : FitsField (dec v) :=
  fitsField_of_digits (dec_allDigits v) (((dec_length_le_iff (by omega) v).mpr h).trans (by omega))

theorem fmtUdec_ok_fits {w : ℕ} {v : Word32} {g : Bytes} (hw : w ≤ 10)
    (h : fmtUdec w v.toNat = .ok g) : FitsField g := by
  rcases Nat.eq_zero_or_pos w with rfl | hpos
  · obtain rfl := Except.ok.inj ((fmtUdec_zero _).symm.trans h)
    exact fitsField_dec (v.isLt.trans (by norm_num))
  · rcases Nat.lt_or_ge v.toNat (10 ^ w) with hv | hv
    · obtain rfl := Except.ok.inj ((fmtUdec_of_lt hpos hv).symm.trans h)
      exact fitsField_of_digits (paddedDec_allDigits w _) (by rw [paddedDec_length hpos hv]; omega)
    · exact absurd ((fmtUdec_of_ge hpos hv).symm.trans h) (by simp)

theorem fmtSdec_fits (v : Word32) : FitsField (fmtSdec v.toInt) := by
  have hlow := v.le_two_mul_toInt
  have hhigh := v.two_mul_toInt_lt
  obtain ⟨hlegal, -⟩ := fitsField_dec (v := v.toInt.natAbs) (by omega)
  have hlength := (dec_length_le_iff (w := 10) (by omega) v.toInt.natAbs).mpr (by omega)
  rw [fmtSdec]
  split_ifs
  · refine ⟨List.forall_mem_cons.mpr ⟨by decide, hlegal⟩, ?_⟩
    rw [List.length_cons]
    omega
  · exact ⟨hlegal, by omega⟩

theorem fmtSfix_ok_fits {p : ℕ} {f : F64} {g : Bytes} (hp : p ≤ 9) (h : fmtSfix p f = .ok g) :
    FitsField g := by
  by_cases hrange : SfixInRange f
  · obtain ⟨q, hnear, hok⟩ := fmtSfix_of_inRange p hrange
    obtain rfl := Except.ok.inj (hok.symm.trans h)
    have hq : q.natAbs < 10 ^ 10 * 10 ^ p :=
      (natAbs_le_of_inRange hrange hnear).trans_lt
        (Nat.mul_lt_mul_of_pos_right (by norm_num) (by positivity))
    exact ⟨fixedText_legalText p q, (fixedText_length_le hp hq).trans (by omega)⟩
  · exact absurd ((fmtSfix_of_not_inRange p hrange).symm.trans h) (by simp)

/-- Whatever a format answers is legal text of at most 255 bytes. -/
theorem formatField_ok_fits {f : FieldFmt} {g : Bytes} (hwf : f.wellFormed = true)
    (h : formatField f = .ok g) : FitsField g := by
  cases f with
  | str s =>
    by_cases hlegal : LegalText s
    · obtain rfl := Except.ok.inj ((fmtStr_of_legal hlegal).symm.trans h)
      exact ⟨hlegal, of_decide_eq_true hwf⟩
    · exact absurd ((fmtStr_of_illegal hlegal).symm.trans h) (by simp)
  | udec w v =>
    have hw : w.toNat ≤ 10 := of_decide_eq_true hwf
    exact fmtUdec_ok_fits hw ((if_neg (by omega)).symm.trans h)
  | sdec v =>
    obtain rfl := Except.ok.inj h
    exact fmtSdec_fits v
  | sfix p v =>
    have hp : p.toNat ≤ 9 := of_decide_eq_true hwf
    exact fmtSfix_ok_fits hp ((if_neg (by omega)).symm.trans h)
  | date8 year month day =>
    by_cases hrange : year.toNat ≤ 9999 ∧ month.toNat ≤ 99 ∧ day.toNat ≤ 99
    · obtain ⟨hy, hm, hd⟩ := hrange
      obtain rfl := Except.ok.inj ((fmtDate8_of_inRange hy hm hd).symm.trans h)
      exact fitsField_of_digits (threeParts_allDigits _ _ _ _)
        (by rw [threeParts_length (by omega) (by omega) hm hd]; omega)
    · exact absurd ((fmtDate8_of_not_inRange hrange).symm.trans h) (by simp)
  | time6 hour minute second =>
    by_cases hrange : hour.toNat ≤ 99 ∧ minute.toNat ≤ 99 ∧ second.toNat ≤ 99
    · obtain ⟨hh, hmi, hs⟩ := hrange
      obtain rfl := Except.ok.inj ((fmtTime6_of_inRange hh hmi hs).symm.trans h)
      exact fitsField_of_digits (threeParts_allDigits _ _ _ _)
        (by rw [threeParts_length (by omega) (by omega) hmi hs]; omega)
    · exact absurd ((fmtTime6_of_not_inRange hrange).symm.trans h) (by simp)
  | flag b =>
    by_cases hrange : b.toNat ≤ 1
    · obtain rfl := Except.ok.inj ((fmtFlag_of_le hrange).symm.trans h)
      exact fitsField_dec (by omega)
    · exact absurd ((fmtFlag_of_gt (by omega)).symm.trans h) (by simp)

/-- FMT_FIELD answers the text of its format: a text that a field can hold is within the limit of
a result. -/
theorem exec_fmtField_of_ok (f : FieldFmt) {g : Bytes} (hwf : f.wellFormed = true)
    (h : formatField f = .ok g) (s : State) :
    exec (.fmtField f) s = .next (State.answered s.serial (okResponse g)) := by
  have hexec : exec (.fmtField f) s = answerPure s (formatField f) := rfl
  obtain ⟨-, hlength⟩ := formatField_ok_fits hwf h
  rw [hexec, h, answerPure_ok s (hlength.trans (by decide))]

theorem exec_fmtField_of_error (f : FieldFmt) {e : CommandError} (h : formatField f = .error e)
    (s : State) :
    exec (.fmtField f) s = .next (State.answered s.serial (errorResponse e)) :=
  congrArg (answerPure s) h

end Sys2Proof.Machine

open Sys2Proof Sys2Proof.Machine

/-- Settles O46: `checkText` accepts exactly the legal texts. -/
theorem strField : Obligations.StrField := fun text s hlength => ⟨
  fun hlegal =>
    exec_fmtField_of_ok (.str text) (decide_eq_true hlength) (fmtStr_of_legal hlegal) s,
  fun hillegal => exec_fmtField_of_error (.str text) (fmtStr_of_illegal hillegal) s⟩

/-- Settles O47: a number has at most `w` digits exactly if it is below 10 to the `w`
(`dec_length_le_iff`), and the padding fills the width. -/
theorem udecField : Obligations.UdecField := by
  intro w v s hw
  have hformat : formatField (.udec w v) = fmtUdec w.toNat v.toNat := if_neg (by omega)
  have hwf : (FieldFmt.udec w v).wellFormed = true := decide_eq_true hw
  refine ⟨fun hzero => ?_, fun hpos hlt => ?_, fun hpos hge => ?_⟩
  · refine exec_fmtField_of_ok _ hwf ?_ s
    rw [hformat, hzero, fmtUdec_zero]
  · exact ⟨paddedDec w.toNat v.toNat,
      exec_fmtField_of_ok _ hwf (hformat.trans (fmtUdec_of_lt hpos hlt)) s,
      paddedDec_length hpos hlt, paddedDec_allDigits _ _, decimalValue_paddedDec _ _⟩
  · exact exec_fmtField_of_error _ (hformat.trans (fmtUdec_of_ge hpos hge)) s

/-- Settles O48: `fmtSdec_eq`, in at most eleven bytes. -/
theorem sdecField : Obligations.SdecField := fun v s =>
  exec_fmtField_of_ok (.sdec v) rfl (congrArg Except.ok (fmtSdec_eq v.toInt)) s

/-- Settles O49: `fixedText_eq` for the rounded product of `fmtSfix_of_inRange`. -/
theorem sfixField : Obligations.SfixField := by
  intro p f s hp
  have hformat : formatField (.sfix p f) = fmtSfix p.toNat f := if_neg (by omega)
  have hwf : (FieldFmt.sfix p f).wellFormed = true := decide_eq_true hp
  refine ⟨fun hrange => ?_, fun hrange => ?_⟩
  · obtain ⟨q, hnear, hok⟩ := fmtSfix_of_inRange p.toNat hrange
    have hexec := exec_fmtField_of_ok _ hwf (hformat.trans hok) s
    rw [fixedText_eq] at hexec
    rcases Nat.eq_zero_or_pos p.toNat with hzero | hpos
    · rw [hzero] at hnear hexec ⊢
      exact ⟨q, [], hnear, rfl, by simp [AllDigits], (Nat.mod_one _).symm, hexec⟩
    · have hlt : q.natAbs % 10 ^ p.toNat < 10 ^ p.toNat := Nat.mod_lt _ (by positivity)
      exact ⟨q, paddedDec p.toNat (q.natAbs % 10 ^ p.toNat), hnear, paddedDec_length hpos hlt,
        paddedDec_allDigits _ _, decimalValue_paddedDec _ _, hexec⟩
  · exact exec_fmtField_of_error _ (hformat.trans (fmtSfix_of_not_inRange _ hrange)) s

/-- Settles O50: the sign stands before a negative rounded value only
(`fixedText_head?_eq_minus_iff`), and that value is not 0 (`exists_nonzero_digit_fixedText`). -/
theorem sfixHasNoNegativeZero : Obligations.SfixHasNoNegativeZero := by
  intro p f text htext hminus
  by_cases hrange : SfixInRange f
  · obtain ⟨q, -, hok⟩ := fmtSfix_of_inRange p hrange
    obtain rfl := Except.ok.inj (hok.symm.trans htext)
    have hneg := (fixedText_head?_eq_minus_iff p q).mp hminus
    exact exists_nonzero_digit_fixedText p hneg.ne
  · exact absurd ((fmtSfix_of_not_inRange p hrange).symm.trans htext) (by simp)

/-- Settles O51: both formats write three padded numbers (`threeParts`). -/
theorem dateAndTimeFields : Obligations.DateAndTimeFields := by
  refine ⟨fun y m d s => ⟨?_, fun hbad => ?_⟩, fun h mi sec s => ⟨?_, fun hbad => ?_⟩⟩
  · rintro ⟨hy, hm, hd⟩
    exact ⟨_, exec_fmtField_of_ok (.date8 y m d) rfl (fmtDate8_of_inRange hy hm hd) s,
      threeParts_length (by omega) (by omega) hm hd, threeParts_allDigits _ _ _ _,
      decimalValue_threeParts _ _ hm hd⟩
  · exact exec_fmtField_of_error (.date8 y m d) (fmtDate8_of_not_inRange hbad) s
  · rintro ⟨hh, hmi, hsec⟩
    exact ⟨_, exec_fmtField_of_ok (.time6 h mi sec) rfl (fmtTime6_of_inRange hh hmi hsec) s,
      threeParts_length (by omega) (by omega) hmi hsec, threeParts_allDigits _ _ _ _,
      decimalValue_threeParts _ _ hmi hsec⟩
  · exact exec_fmtField_of_error (.time6 h mi sec) (fmtTime6_of_not_inRange hbad) s

/-- Settles O52: the two bytes that are flags, and the others (`fmtFlag_eq`). -/
theorem flagField : Obligations.FlagField := by
  intro b s
  have hexec : exec (.fmtField (.flag b)) s = answerPure s (fmtFlag b) := rfl
  rw [hexec, fmtFlag_eq]
  refine answerPure_ite Iff.rfl (answerPure_ok_of_length s rfl (by decide)) fun _ => ?_
  exact answerPure_ite Iff.rfl (answerPure_ok_of_length s rfl (by decide)) fun _ => rfl
end

section
/-! PROOF. The statements about the records of 44_text_frame.md (R220 to R224). A record of legal
texts is refused for its length alone; each field of the status record has a text in its range and a
status of its own outside it, so a record of a legal tag and of fields in range is never refused
(`fieldRecord_of_inRange`) and the first field out of range says the error
(`sttFields_of_first_bad`). -/

namespace Sys2Proof.Machine

/-! ### Records (44_text_frame.md rule R221) -/

theorem forall_legal_cons_iff (tag : Bytes) (fields : List Bytes) :
    (∀ f ∈ tag :: fields, f.all legalTextByte = true) ↔
      LegalText tag ∧ ∀ f ∈ fields, LegalText f := by
  simp only [List.forall_mem_cons, legalText_iff_all]

theorem record_nil (fields : List Bytes) : record [] fields = .error .malformedCommand := if_pos rfl

theorem record_of_illegal {tag : Bytes} {fields : List Bytes} (htag : tag ≠ [])
    (h : ¬ (LegalText tag ∧ ∀ f ∈ fields, LegalText f)) :
    record tag fields = .error .fieldChar := by
  have hill := (forall_legal_cons_iff tag fields).not.mpr h
  obtain ⟨hnil, -⟩ | ⟨-, -, herror⟩ | ⟨-, hlegal, -⟩ | ⟨-, hlegal, -⟩ := record_cases tag fields
  · exact absurd hnil htag
  · exact herror
  · exact absurd hlegal hill
  · exact absurd hlegal hill

/-- With a tag and legal text only the length is checked. -/
theorem record_of_legal {tag : Bytes} {fields : List Bytes} (htag : tag ≠ [])
    (hlegal : LegalText tag) (hfields : ∀ f ∈ fields, LegalText f) :
    record tag fields = if 65535 < (joinRecord tag fields).length then .error .lengthOverflow
      else .ok (joinRecord tag fields) := by
  obtain ⟨hnil, -⟩ | ⟨-, ⟨f, hf, hbad⟩, -⟩ | ⟨-, -, hlong, herror⟩ | ⟨-, -, hshort, hok⟩ :=
    record_cases tag fields
  · exact absurd hnil htag
  · have hall := (forall_legal_cons_iff tag fields).mpr ⟨hlegal, hfields⟩
    simp [hall f hf] at hbad
  · rw [herror, if_pos hlong]
  · rw [hok, if_neg (by omega)]

/-- A record that is built joins legal texts. -/
theorem record_ok {tag bytes : Bytes} {fields : List Bytes} (h : record tag fields = .ok bytes) :
    (∀ f ∈ tag :: fields, LegalText f) ∧ bytes = joinRecord tag fields := by
  obtain ⟨-, herror⟩ | ⟨-, -, herror⟩ | ⟨-, -, -, herror⟩ | ⟨-, hlegal, -, hok⟩ :=
    record_cases tag fields
  · exact absurd (herror.symm.trans h) (by simp)
  · exact absurd (herror.symm.trans h) (by simp)
  · exact absurd (herror.symm.trans h) (by simp)
  · exact ⟨fun f hf => (legalText_iff_all f).mpr (hlegal f hf), Except.ok.inj (h.symm.trans hok)⟩

theorem delimiter_notMem_of_legalText {s : Bytes} (h : LegalText s) : delimiter ∉ s :=
  fun hmem => (h delimiter hmem).2.2 rfl

/-- A delimiter before each field is a delimiter between neighbours. -/
theorem append_flatMap_delimiter (tag : Bytes) (fields : List Bytes) :
    tag ++ fields.flatMap (fun f => delimiter :: f) = [delimiter].intercalate (tag :: fields) := by
  induction fields generalizing tag with
  | nil => simp [List.intercalate]
  | cons f fs ih =>
    rw [List.intercalate_cons_cons, ← ih, List.flatMap_cons]
    simp

theorem joinRecord_length_le {tag : Bytes} {fields : List Bytes}
    (h : ∀ f ∈ fields, f.length ≤ 255) :
    (joinRecord tag fields).length ≤ tag.length + fields.length * 256 + 1 := by
  have hsum := List.sum_le_card_nsmul (fields.map fun f => (delimiter :: f).length) 256 (by
    simp only [List.mem_map, List.length_cons]
    rintro _ ⟨f, hf, rfl⟩
    have := h f hf
    omega)
  rw [List.length_map, smul_eq_mul] at hsum
  rw [joinRecord, List.length_append, List.length_append, List.length_flatMap,
    List.length_singleton]
  omega

/-- A tag and at most sixteen field texts always make a record. -/
theorem record_of_fits {tag : Bytes} {fields : List Bytes} (htag : tag ≠ []) (hfits : FitsField tag)
    (hfields : ∀ f ∈ fields, FitsField f) (hcount : fields.length ≤ 16) :
    record tag fields = .ok (joinRecord tag fields) ∧
      (joinRecord tag fields).length ≤ resultLimit := by
  obtain ⟨hlegal, hlength⟩ := hfits
  have hjoin := joinRecord_length_le (tag := tag) fun f hf => (hfields f hf).2
  have hlimit : (joinRecord tag fields).length ≤ 65535 := by omega
  rw [record_of_legal htag hlegal fun f hf => (hfields f hf).1, if_neg (by omega)]
  exact ⟨rfl, hlimit⟩

/-! ### One field of the status record (44_text_frame.md rule R222) -/

theorem WithinLimit.sfixInRange {f : F64} {limit : ℚ} (h : WithinLimit f limit)
    (hlimit : limit < 10 ^ 9) : SfixInRange f :=
  ⟨h.1, h.2.trans_lt hlimit⟩

theorem coordField_of_withinLimit (p : ℕ) {limit : ℕ} {f : F64} (h : WithinLimit f limit) :
    coordField p limit f = fmtSfix p f := by
  obtain ⟨-, -, heq⟩ | ⟨hno, -⟩ := coordField_cases p limit f
  · exact heq
  · obtain ⟨hfinite, hle⟩ := (withinLimit_iff f limit).mp h
    simp [hfinite, hle] at hno

theorem coordField_of_not_withinLimit (p : ℕ) {limit : ℕ} {f : F64} (h : ¬ WithinLimit f limit) :
    coordField p limit f = .error .coordRange := by
  obtain ⟨hfinite, hle, -⟩ | ⟨-, herror⟩ := coordField_cases p limit f
  · exact absurd ((withinLimit_iff f limit).mpr ⟨hfinite, hle⟩) h
  · exact herror

theorem exists_fmtSfix_of_inRange (p : ℕ) {f : F64} (h : SfixInRange f) :
    ∃ g, fmtSfix p f = .ok g :=
  let ⟨q, _, hok⟩ := fmtSfix_of_inRange p h
  ⟨fixedText p q, hok⟩

theorem exists_coordField_of_withinLimit (p : ℕ) {limit : ℕ} {f : F64} (h : WithinLimit f limit)
    (hlimit : (limit : ℚ) < 10 ^ 9) : ∃ g, coordField p limit f = .ok g := by
  rw [coordField_of_withinLimit p h]
  exact exists_fmtSfix_of_inRange p (h.sfixInRange hlimit)

theorem sttField_of_inRange (P : Params) {r : SttRec} {k : SttField} (h : SttInRange r k) :
    ∃ g, sttField P r k = .ok g := by
  cases k with
  | deviceId | firmware | ioStatus => exact ⟨_, fmtStr_of_legal h⟩
  | date =>
    obtain ⟨hy, hm, hd⟩ := h
    exact ⟨_, fmtDate8_of_inRange hy hm hd⟩
  | time =>
    obtain ⟨hh, hmi, hs⟩ := h
    exact ⟨_, fmtTime6_of_inRange hh hmi hs⟩
  | odometer => exact ⟨_, fmtUdec_of_lt (by omega) (Nat.lt_succ_of_le h)⟩
  | latitude =>
    exact exists_coordField_of_withinLimit _ (limit := latLimit) h (by norm_num [latLimit])
  | longitude =>
    exact exists_coordField_of_withinLimit _ (limit := lonLimit) h (by norm_num [lonLimit])
  | speed | course | battery => exact exists_fmtSfix_of_inRange _ h
  | satellites | eventCode => exact ⟨_, fmtUdec_zero _⟩
  | fixFlag | ignitionFlag => exact ⟨_, fmtFlag_of_le h⟩
  | signal => exact ⟨_, rfl⟩

/-- A field out of range is refused with the status of its kind (60_exceptions.md rule R251). -/
theorem sttField_of_not_inRange (P : Params) {r : SttRec} {k : SttField} (h : ¬ SttInRange r k) :
    ∃ e, sttField P r k = .error e ∧ errorResponse e = [fieldErrorStatus k, 0x00, 0x00] := by
  cases k with
  | deviceId | firmware | ioStatus => exact ⟨_, fmtStr_of_illegal h, rfl⟩
  | date => exact ⟨_, fmtDate8_of_not_inRange h, rfl⟩
  | time => exact ⟨_, fmtTime6_of_not_inRange h, rfl⟩
  | odometer => exact ⟨_, fmtUdec_of_ge (by omega) (Nat.lt_of_not_le h), rfl⟩
  | latitude => exact ⟨_, coordField_of_not_withinLimit _ (limit := latLimit) h, rfl⟩
  | longitude => exact ⟨_, coordField_of_not_withinLimit _ (limit := lonLimit) h, rfl⟩
  | speed | course | battery => exact ⟨_, fmtSfix_of_not_inRange _ h, rfl⟩
  | fixFlag | ignitionFlag => exact ⟨_, fmtFlag_of_gt (Nat.lt_of_not_le h), rfl⟩
  | satellites | signal | eventCode => exact absurd trivial h

theorem formatField_udec_zero (v : Word32) : formatField (.udec 0 v) = .ok (dec v.toNat) := rfl

theorem formatField_sfix {p : ℕ} (hp : p ≤ 9) (f : F64) :
    formatField (.sfix (BitVec.ofNat 8 p) f) = fmtSfix p f := by
  have hnum : (BitVec.ofNat 8 p).toNat = p := by
    rw [BitVec.toNat_ofNat]
    omega
  rw [formatField, hnum, if_neg (by omega)]

/-- Under legal parameters a field in range has the text of its FMT_FIELD form. -/
theorem sttField_eq_formatField {P : Params} (hP : legalParams P = true) {r : SttRec} {k : SttField}
    (h : SttInRange r k) : sttField P r k = formatField (sttFormat P r k) := by
  obtain ⟨-, hlatlon, hspeed, hcourse, hbatt, -⟩ := (legalParams_iff P).mp hP
  cases k with
  | deviceId | firmware | date | time | odometer | fixFlag | ignitionFlag | ioStatus => rfl
  | latitude =>
    exact (coordField_of_withinLimit _ (limit := latLimit) h).trans
      (formatField_sfix hlatlon _).symm
  | longitude =>
    exact (coordField_of_withinLimit _ (limit := lonLimit) h).trans
      (formatField_sfix hlatlon _).symm
  | speed => exact (formatField_sfix hspeed _).symm
  | course => exact (formatField_sfix hcourse _).symm
  | battery => exact (formatField_sfix hbatt _).symm
  | satellites | eventCode =>
    rw [sttFormat, formatField_udec_zero, BitVec.toNat_setWidth_of_le (by omega)]
    exact fmtUdec_zero _
  | signal =>
    rw [sttFormat, formatField, BitVec.toInt_signExtend_of_le (by omega)]
    rfl

theorem sttFormat_wellFormed {P : Params} (hP : legalParams P = true) {r : SttRec}
    (hr : r.wellFormed = true) (k : SttField) : (sttFormat P r k).wellFormed = true := by
  obtain ⟨-, hlatlon, hspeed, hcourse, hbatt, -⟩ := (legalParams_iff P).mp hP
  simp only [SttRec.wellFormed, Bool.and_eq_true] at hr
  obtain ⟨⟨hdev, hfw⟩, hio⟩ := hr
  have hprecision {p : ℕ} (hp : p ≤ 9) (f : F64) :
      (FieldFmt.sfix (BitVec.ofNat 8 p) f).wellFormed = true := by
    rw [FieldFmt.wellFormed, decide_eq_true_iff, BitVec.toNat_ofNat]
    omega
  cases k with
  | deviceId => exact hdev
  | firmware => exact hfw
  | ioStatus => exact hio
  | latitude | longitude => exact hprecision hlatlon _
  | speed => exact hprecision hspeed _
  | course => exact hprecision hcourse _
  | battery => exact hprecision hbatt _
  | date | time | odometer | satellites | fixFlag | ignitionFlag | signal | eventCode => rfl

/-- A field's text depends on the operands of its format alone. -/
theorem sttField_congr {P : Params} {r r' : SttRec} {k : SttField}
    (h : sttFormat P r k = sttFormat P r' k) : sttField P r k = sttField P r' k := by
  cases k with
  | deviceId | firmware | ioStatus => exact congrArg fmtStr (FieldFmt.str.inj h)
  | date =>
    obtain ⟨hy, hm, hd⟩ := FieldFmt.date8.inj h
    rw [sttField, sttField, hy, hm, hd]
  | time =>
    obtain ⟨hh, hmi, hs⟩ := FieldFmt.time6.inj h
    rw [sttField, sttField, hh, hmi, hs]
  | odometer =>
    obtain ⟨-, hvalue⟩ := FieldFmt.udec.inj h
    rw [sttField, sttField, hvalue]
  | latitude | longitude | speed | course | battery =>
    obtain ⟨-, hvalue⟩ := FieldFmt.sfix.inj h
    rw [sttField, sttField, hvalue]
  | satellites | eventCode =>
    obtain ⟨-, hwide⟩ := FieldFmt.udec.inj h
    have hvalue := congrArg BitVec.toNat hwide
    rw [BitVec.toNat_setWidth_of_le (by omega), BitVec.toNat_setWidth_of_le (by omega)] at hvalue
    rw [sttField, sttField, hvalue]
  | fixFlag | ignitionFlag => exact congrArg fmtFlag (FieldFmt.flag.inj h)
  | signal =>
    have hvalue := congrArg BitVec.toInt (FieldFmt.sdec.inj h)
    rw [BitVec.toInt_signExtend_of_le (by omega),
      BitVec.toInt_signExtend_of_le (by omega)] at hvalue
    rw [sttField, sttField, hvalue]

/-! ### Lists of fields (44_text_frame.md rules R223, R224) -/

theorem sttFields_cons (P : Params) (r : SttRec) (k : SttField) (ks : List SttField) :
    sttFields P r (k :: ks) = (do
      let g ← sttField P r k
      let gs ← sttFields P r ks
      return g :: gs) := rfl

theorem sttFields_congr {P : Params} {r r' : SttRec} {ks : List SttField}
    (h : ∀ k ∈ ks, sttField P r k = sttField P r' k) : sttFields P r ks = sttFields P r' ks := by
  induction ks with
  | nil => rfl
  | cons k ks ih =>
    obtain ⟨hk, hks⟩ := List.forall_mem_cons.mp h
    rw [sttFields_cons, sttFields_cons, hk, ih hks]

/-- The first field that has no text says the error. -/
theorem sttFields_of_first_error {P : Params} {r : SttRec} {before after : List SttField}
    {k : SttField} {e : CommandError} (hbefore : ∀ j ∈ before, ∃ g, sttField P r j = .ok g)
    (hk : sttField P r k = .error e) : sttFields P r (before ++ k :: after) = .error e := by
  induction before with
  | nil =>
    rw [List.nil_append, sttFields_cons, hk]
    rfl
  | cons j before ih =>
    obtain ⟨⟨g, hg⟩, hrest⟩ := List.forall_mem_cons.mp hbefore
    rw [List.cons_append, sttFields_cons, hg, ih hrest]
    rfl

theorem sttFields_of_first_bad (P : Params) {r : SttRec} {before after : List SttField}
    {k : SttField} (hbefore : ∀ j ∈ before, SttInRange r j) (hk : ¬ SttInRange r k) :
    ∃ e, sttFields P r (before ++ k :: after) = .error e ∧
      errorResponse e = [fieldErrorStatus k, 0x00, 0x00] := by
  obtain ⟨e, he, hstatus⟩ := sttField_of_not_inRange P hk
  exact ⟨e, sttFields_of_first_error (fun j hj => sttField_of_inRange P (hbefore j hj)) he, hstatus⟩

/-- Fields in range all have the text of their FMT_FIELD form, and each text fits a field. -/
theorem sttFields_of_inRange {P : Params} (hP : legalParams P = true) {r : SttRec}
    (hr : r.wellFormed = true) {ks : List SttField} (h : ∀ k ∈ ks, SttInRange r k) :
    ∃ gs, sttFields P r ks = .ok gs ∧
      List.Forall₂ (fun k g => formatField (sttFormat P r k) = .ok g) ks gs ∧
      ∀ g ∈ gs, FitsField g := by
  obtain ⟨gs, hgs, -, htexts⟩ | ⟨before, k, after, e, rfl, -, hk, -⟩ := sttFields_cases P r ks
  · have hforms := ((List.forall₂_and_left ks gs).mpr ⟨h, htexts⟩).imp fun _ _ ⟨hk, hg⟩ =>
      (sttField_eq_formatField hP hk).symm.trans hg
    have hboth := hforms.flip.imp fun _ k hg =>
      And.intro (formatField_ok_fits (sttFormat_wellFormed hP hr k) hg) hg
    obtain ⟨hfits, -⟩ := (List.forall₂_and_left gs ks).mp hboth
    exact ⟨gs, hgs, hforms, hfits⟩
  · obtain ⟨g, hg⟩ := sttField_of_inRange P (h k (by simp))
    exact absurd (hk.symm.trans hg) (by simp)

/-- A record of a tag and at most sixteen listed fields. -/
theorem fieldRecord_of_inRange {P : Params} (hP : legalParams P = true) {r : SttRec}
    (hr : r.wellFormed = true) {ks : List SttField} (h : ∀ k ∈ ks, SttInRange r k)
    (hcount : ks.length ≤ 16) {ending tag : Bytes} (htag : legalTag ending tag = true) (s : State) :
    ∃ texts, List.Forall₂ (fun k g => formatField (sttFormat P r k) = .ok g) ks texts ∧
      answerPure s (sttFields P r ks >>= record tag) =
        .next (State.answered s.serial (okResponse (joinRecord tag texts))) := by
  obtain ⟨hpos, hlength, hlegal, -⟩ := (legalTag_iff ending tag).mp htag
  obtain ⟨gs, hgs, hforms, hfits⟩ := sttFields_of_inRange hP hr h
  have hrecord := record_of_fits (List.length_pos_iff.mp hpos)
    ⟨(legalText_iff_all tag).mpr hlegal, hlength⟩ hfits (hforms.length_eq ▸ hcount)
  obtain ⟨hok, hlimit⟩ := hrecord
  have hbind : (sttFields P r ks >>= record tag) = .ok (joinRecord tag gs) := by
    rw [hgs, ← hok]
    rfl
  exact ⟨gs, hforms, by rw [hbind, answerPure_ok s hlimit]⟩

/-! ### BUILD_STT and BUILD_ALV (44_text_frame.md rules R223, R224) -/

theorem exec_buildStt (r : SttRec) (s : State) :
    exec (.buildStt r) s =
      answerPure s (sttFields Config.params r SttField.all >>= record Config.params.tagStt) := rfl

theorem exec_buildAlv (r : SttRec) (s : State) :
    exec (.buildAlv r) s =
      answerPure s (sttFields Config.params r Config.params.alvFields >>=
        record Config.params.tagAlv) := rfl

theorem config_params_legal : legalParams Config.params = true := legalParams_ofChoices ..

end Sys2Proof.Machine

open Sys2Proof Sys2Proof.Machine

/-- Settles O53, on the checks of `record` in their order. -/
theorem textRecordCommand : Obligations.TextRecordCommand := by
  intro tag fields s
  have hexec : exec (.textRecord tag fields) s = answerPure s (record tag fields) := rfl
  rw [hexec]
  refine ⟨?_, fun htag hbad => ?_, fun htag hlegal hfields hlong => ?_,
    fun htag hlegal hfields hshort => ?_⟩
  · rintro rfl
    rw [record_nil]
    rfl
  · rw [record_of_illegal htag hbad]
    rfl
  · rw [record_of_legal htag hlegal hfields,
      if_pos (c := 65535 < (joinRecord tag fields).length) hlong]
    rfl
  · rw [record_of_legal htag hlegal hfields,
      if_neg (c := 65535 < (joinRecord tag fields).length) (Nat.not_lt.mpr hshort)]
    exact answerPure_ok s hshort

/-- Settles O54: no legal text holds the delimiter, so splitting undoes the joining. -/
theorem recordSplitsIntoItsFields : Obligations.RecordSplitsIntoItsFields := by
  intro tag fields bytes hrecord
  obtain ⟨hlegal, rfl⟩ := record_ok hrecord
  refine ⟨List.getLast?_concat, ?_⟩
  rw [joinRecord, List.dropLast_concat, append_flatMap_delimiter]
  exact List.splitOn_intercalate delimiter
    (fun f hf => delimiter_notMem_of_legalText (hlegal f hf)) (List.cons_ne_nil tag fields)

/-- Settles O55: `fieldRecord_of_inRange` for the sixteen fields. -/
theorem buildSttCommand : Obligations.BuildSttCommand := by
  intro r s hr hrange
  obtain ⟨-, -, -, -, -, htag, -⟩ := (legalParams_iff _).mp config_params_legal
  rw [exec_buildStt]
  exact fieldRecord_of_inRange config_params_legal hr (fun k _ => hrange k) le_rfl htag s

/-- Settles O56: `fieldRecord_of_inRange` for the listed fields, at most fifteen. -/
theorem buildAlvCommand : Obligations.BuildAlvCommand := by
  intro r s hr hrange
  obtain ⟨-, -, -, -, -, -, htag, -, hcount, -⟩ := (legalParams_iff _).mp config_params_legal
  rw [exec_buildAlv]
  exact fieldRecord_of_inRange config_params_legal hr hrange (by omega) htag s

/-- Settles O57: fields in range have a text, so the first bad one says the error
(`sttFields_of_first_bad`), and its kind says which. -/
theorem sttReportsFirstBadField : Obligations.SttReportsFirstBadField := by
  intro r s before after k hall hbefore hk
  obtain ⟨e, he, hstatus⟩ := sttFields_of_first_bad Config.params (after := after) hbefore hk
  rw [exec_buildStt, hall, he, ← hstatus]
  rfl

/-- Settles O58: the listed fields' texts are all that the record is made of (`sttFields_congr`),
and the first bad one says the error (`sttFields_of_first_bad`). -/
theorem alvChecksListedFieldsOnly : Obligations.AlvChecksListedFieldsOnly := by
  refine ⟨fun _ _ => rfl, fun P r r' hsame => ?_, fun P r before after k hlist hbefore hk => ?_⟩
  · have hfields := sttFields_congr fun k hk => sttField_congr (hsame k hk)
    rw [alvRecord, alvRecord, hfields]
  · obtain ⟨e, he, hstatus⟩ := sttFields_of_first_bad P (after := after) hbefore hk
    refine ⟨e, ?_, hstatus⟩
    rw [alvRecord, hlist, he]
    rfl
end

section
/-! PROOF. The statement about 60_exceptions.md: a command that raises an error leaves no trace (R252,
R253). A transaction is accepted by a waiting block only and ends in one of two ways, a result or an
error (`transact_cases`); the status tells which, and an error's bytes have one of two forms
(`errorResponse_cases`). -/

namespace Sys2Proof.Machine

/-! ### The bytes of an error (60_exceptions.md rules R250, R252) -/

@[simp] theorem okResponse_status (result : Bytes) : (okResponse result).getD 0 0 = 0 := rfl

theorem reasonByte_range (reason : FrameReason) :
    1 ≤ (reasonByte reason).toNat ∧ (reasonByte reason).toNat ≤ 4 := by
  cases reason <;> decide

/-- A status of its own and no result, or the status and the reason of a FrameError. -/
theorem errorResponse_cases (e : CommandError) :
    (∃ status : Byte, status ≠ 0x03 ∧ errorResponse e = [status, 0x00, 0x00]) ∨
      ∃ reason : FrameReason, errorResponse e = [0x03, 0x00, 0x01, reasonByte reason] := by
  cases e with
  | frameError reason => exact .inr ⟨reason, by cases reason <;> rfl⟩
  | _ => exact .inl ⟨_, by decide, rfl⟩

/-! ### How a command ends (60_exceptions.md rule R253) -/

/-- A delivered command is answered with a result, SERIAL taking some value, or with an error, SERIAL
keeping its value. -/
theorem step_holding_cases (n : Word16) (cmd : Bytes) :
    (∃ result n', step (State.holding n cmd) = .next (State.answered n' (okResponse result))) ∨
      ∃ e, step (State.holding n cmd) = .next (State.answered n (errorResponse e)) := by
  cases hdecode : decode cmd with
  | error e => exact .inr ⟨e, step_holding_of_decode_error hdecode n⟩
  | ok i =>
    obtain ⟨r, hr⟩ := exec_finish i (State.holding n cmd)
    rw [step_holding_of_decode_ok hdecode, hr]
    obtain ⟨eff, -, -, hfinish⟩ | ⟨e, hfinish⟩ := finish_cases (State.holding n cmd) r
    · exact .inl ⟨eff.result, eff.serial, congrArg _ hfinish⟩
    · exact .inr ⟨e, congrArg _ hfinish⟩

/-- Only a waiting block takes a command (70_reset_and_hazards.md rule R286). -/
theorem eq_idle_of_transact {s : State} {cmd : Bytes} {answer : Bytes × State}
    (h : transact s cmd = some answer) : s = State.idle s.serial := by
  obtain ⟨delivered, hdeliver, -⟩ := Option.bind_eq_some_iff.mp h
  obtain ⟨hcommand, hresponse, -⟩ := deliver_cases hdeliver
  obtain ⟨n, c, r⟩ := s
  cases hcommand
  cases hresponse
  rfl

/-- Everything a transaction can do: answer a result, or answer an error and leave the state as it
was. -/
theorem transact_cases {s t : State} {cmd bytes : Bytes}
    (h : transact s cmd = some (bytes, t)) :
    (∃ result, bytes = okResponse result) ∨ ∃ e, bytes = errorResponse e ∧ t = s := by
  have hidle := eq_idle_of_transact h
  obtain ⟨result, n', hstep⟩ | ⟨e, hstep⟩ := step_holding_cases s.serial cmd <;>
    rw [hidle, transact_of_step hstep] at h <;> cases h
  · exact .inl ⟨result, rfl⟩
  · exact .inr ⟨e, rfl, hidle.symm⟩

end Sys2Proof.Machine

open Sys2Proof Sys2Proof.Machine

/-- Settles O8: a status other than OK rules out a result, so the transaction raised an error
(`transact_cases`). -/
theorem failedCommandLeavesNoTrace : Obligations.FailedCommandLeavesNoTrace := by
  intro s t cmd bytes htransact hstatus
  obtain ⟨result, rfl⟩ | ⟨e, rfl, rfl⟩ := transact_cases htransact
  · exact absurd (okResponse_status result) hstatus
  · refine ⟨rfl, (errorResponse_cases e).imp_right fun ⟨reason, hbytes⟩ => ?_⟩
    obtain ⟨hlow, hhigh⟩ := reasonByte_range reason
    exact ⟨reasonByte reason, hlow, hhigh, hbytes⟩
end

section
/-! PROOF. The statements about 70_reset_and_hazards.md: reset, waiting, overlapping commands and the
host's side of the invariant (R280, R281, R286). Each follows from what the step and the command port
can do (`step_cases`, `deliver_cases`, `takeResponse_cases`). -/

namespace Sys2Proof.Machine

/-! ### The two edges of the step (70_reset_and_hazards.md rules R281, R286) -/

theorem step_of_no_command {s : State} (h : s.command = none) : step s = .next s := by
  simp [step, h]

theorem step_of_overlapping {s : State} {cmd bytes : Bytes} (hcommand : s.command = some cmd)
    (hresponse : s.response = some bytes) : step s = .refused .overlappingCommand := by
  simp [step, hcommand, hresponse]

/-- Waiting and every answer are a next state, so the one refusal left is that of a command beside an
unread response. -/
theorem overlapping_of_step_refused {s : State} {r : Refusal} (hstep : step s = .refused r) :
    ∃ cmd bytes, s.command = some cmd ∧ s.response = some bytes := by
  obtain ⟨-, h⟩ | ⟨_, i, -, -, -, h⟩ | ⟨_, e, -, -, -, h⟩ | ⟨cmd, bytes, hcommand, hresponse, -⟩ :=
    step_cases s
  · cases h.symm.trans hstep
  · obtain ⟨_, hanswer⟩ := exec_finish i s
    cases (h.trans hanswer).symm.trans hstep
  · cases h.symm.trans hstep
  · exact ⟨cmd, bytes, hcommand, hresponse⟩

/-! ### The command port (70_reset_and_hazards.md rule R286) -/

/-- A delivery that succeeds finds neither a command nor a response (`deliver_cases`). -/
theorem deliver_eq_none_of_occupied {s : State} (cmd : Bytes)
    (h : s.command ≠ none ∨ s.response ≠ none) : s.deliver cmd = none := by
  refine Option.eq_none_iff_forall_ne_some.mpr fun t hdeliver => ?_
  obtain ⟨hcommand, hresponse, -⟩ := deliver_cases hdeliver
  exact h.elim (· hcommand) (· hresponse)

/-! ### The host keeps the invariant (70_reset_and_hazards.md rules R280, R286) -/

/-- Without a pending response there is nothing that a state could be unsafe for. -/
theorem safe_of_no_response {s : State} (h : s.response = none) : s.safe = true := by
  simp [State.safe, State.portDiscipline, h]

theorem deliver_safe {s t : State} {cmd : Bytes} (h : s.deliver cmd = some t) :
    t.safe = true := by
  obtain ⟨-, -, rfl⟩ := deliver_cases h
  exact safe_of_no_response (State.holding_response s.serial cmd)

theorem takeResponse_safe {s t : State} {bytes : Bytes} (h : s.takeResponse = some (bytes, t)) :
    t.safe = true := by
  obtain ⟨-, -, -, hresponse⟩ := takeResponse_cases h
  exact safe_of_no_response hresponse

end Sys2Proof.Machine

open Sys2Proof Sys2Proof.Machine

/-- Settles O1: the fields of the reset state, which reset from any state gives. -/
theorem resetLeavesSerialOne : Obligations.ResetLeavesSerialOne :=
  ⟨State.reset_serial, State.reset_command, State.reset_response, State.applyReset_eq⟩

/-- Settles O2: `step_of_no_command`. -/
theorem blockWaitsForCommand : Obligations.BlockWaitsForCommand :=
  fun _ => step_of_no_command

/-- Settles O6: a delivery needs a block that is ready, and of all a step can do only the refusal of
an overlapping command is no next state (`overlapping_of_step_refused`). -/
theorem overlappingCommandsHaveNoStep : Obligations.OverlappingCommandsHaveNoStep := by
  refine ⟨fun _ cmd => deliver_eq_none_of_occupied cmd, fun s => ⟨?_, fun hstep => ?_⟩⟩
  · rintro ⟨hcommand, hresponse⟩
    obtain ⟨_, hcommand⟩ := Option.ne_none_iff_exists'.mp hcommand
    obtain ⟨_, hresponse⟩ := Option.ne_none_iff_exists'.mp hresponse
    exact step_of_overlapping hcommand hresponse
  · obtain ⟨_, _, hcommand, hresponse⟩ := overlapping_of_step_refused hstep
    simp [hcommand, hresponse]

/-- Settles O11: after reset, after a delivery and after a reading no response is pending
(`safe_of_no_response`). -/
theorem hostKeepsSafe : Obligations.HostKeepsSafe :=
  ⟨safe_of_no_response State.reset_response, fun _ _ _ _ => deliver_safe,
    fun _ _ _ _ => takeResponse_safe⟩
end
